-- ==== Sys2Proof/Word.lean ====
section
/-! DEFINITION. The words of PT-CORE: the byte, the 32-bit register and address, the 16-byte block. -/

namespace Sys2Proof

/-- A byte, 0 to 255 (00_scope.md R13). -/
abbrev Byte := BitVec 8

/-- A 32-bit register: LEN, OLEN, ECNT (10_state.md R25 to R27). -/
abbrev Word32 := BitVec 32

/-- A host address (20_memory.md R60). -/
abbrev Addr := BitVec 32

/-- A 16-byte block seen as one big-endian 128-bit integer: byte 0 is the most significant
(20_memory.md R62 (a); 00_scope.md R15). -/
abbrev Block := BitVec 128

end Sys2Proof
end

