-- ==== Sys2Proof/Syntax.lean ====
section
/-! DEFINITION. The seven commands of PT-CORE, one constructor per row of the opcode table. -/

namespace Sys2Proof

/-- The commands of 30_encoding.md R91. No command has an operand field (R90): every operand is in a
fixed register or buffer (R93). -/
inductive Instr where
  /-- `CLR`, 43_system.md R203. -/
  | clr
  /-- `KS.GEN`, 40_keystream.md R120. -/
  | ksGen
  /-- `KS.APPLY`, 40_keystream.md R121. -/
  | ksApply
  /-- `GF.MUL`, 41_field_digest.md R151. -/
  | gfMul
  /-- `FD.DIGEST`, 41_field_digest.md R152. -/
  | fdDigest
  /-- `ENV.OPEN`, 42_envelope.md R179. -/
  | envOpen
  /-- `ENV.SEAL`, 42_envelope.md R180. -/
  | envSeal
deriving DecidableEq, Repr

end Sys2Proof
end

