-- ==== Sys2Proof/Decode.lean ====
section
/-! DEFINITION. Decoding and encoding of the one-byte commands, format CMD8 (30_encoding.md R90, R91). -/

namespace Sys2Proof

/-- Bits 7:4 of a command byte (30_encoding.md R90). -/
def unitField (c : Byte) : BitVec 4 := c.extractLsb' 4 4

/-- Bits 3:0 of a command byte (30_encoding.md R90). -/
def opField (c : Byte) : BitVec 4 := c.extractLsb' 0 4

/-- One row of the opcode map: UNIT, OP and the command they select. -/
structure OpcodeRow where
  unit : BitVec 4
  op : BitVec 4
  instr : Instr
deriving DecidableEq, Repr

/-- The opcode map of 30_encoding.md R91. -/
def opcodeMap : List OpcodeRow :=
  [⟨0, 1, .clr⟩, ⟨1, 0, .ksGen⟩, ⟨1, 1, .ksApply⟩, ⟨2, 0, .gfMul⟩, ⟨2, 1, .fdDigest⟩,
    ⟨3, 0, .envOpen⟩, ⟨3, 1, .envSeal⟩]

/-- Why bytes hold no command. -/
inductive DecodeReject where
  /-- There is no byte to decode. -/
  | noByte
  /-- The byte is one of the 249 reserved codes (30_encoding.md R92). -/
  | reservedCode (c : Byte)
deriving DecidableEq, Repr

/-- The command a byte selects, `none` for a reserved code (30_encoding.md R91, R92). -/
def decodeByte (c : Byte) : Option Instr :=
  (opcodeMap.find? fun r => r.unit = unitField c && r.op = opField c).map (·.instr)

/-- Decode the first command of a byte string; a command is always one byte long
(30_encoding.md R90). Total: every byte string decodes or is rejected by name. -/
def decode : List Byte → Except DecodeReject (Instr × List Byte)
  | [] => .error .noByte
  | c :: rest =>
    match decodeByte c with
    | some i => .ok (i, rest)
    | none => .error (.reservedCode c)

/-- The UNIT of a command (30_encoding.md R91). -/
def unitOf : Instr → BitVec 4
  | .clr => 0
  | .ksGen => 1
  | .ksApply => 1
  | .gfMul => 2
  | .fdDigest => 2
  | .envOpen => 3
  | .envSeal => 3

/-- The OP of a command within its unit (30_encoding.md R91). -/
def opOf : Instr → BitVec 4
  | .clr => 1
  | .ksGen => 0
  | .ksApply => 1
  | .gfMul => 0
  | .fdDigest => 1
  | .envOpen => 0
  | .envSeal => 1

/-- The code of a command: UNIT in bits 7:4, OP in bits 3:0 (30_encoding.md R90). -/
def encodeByte (i : Instr) : Byte := unitOf i ++ opOf i

/-- The bytes of a command (30_encoding.md R90: always one). -/
def encode (i : Instr) : List Byte := [encodeByte i]

/-- The command byte that the low `nbits` bits of `w` give; a command has no byte after it. -/
def tableByte (nbits w : Nat) : Byte := BitVec.ofNat 8 (w % 2 ^ nbits)

/-- What the decoder reads from a row of the opcode table whose bits are `w`. -/
def decodeTableWord (nbits w : Nat) : Option Instr :=
  match decode [tableByte nbits w] with
  | .ok (i, _) => some i
  | .error _ => none

end Sys2Proof
end

