-- ==== Sys2Proof/Config.lean ====
section
/-! DEFINITION. The four open parameters of PT-CORE (00_scope.md R6 to R9) and the one value the spec
leaves undefined (41_field_digest.md R145). They are fixed for the machine and are no part of its state
(10_state.md R20, R32; 70_reset_and_hazards.md R251). -/

namespace Sys2Proof

/-- A choice of the parameters. Any value of this type satisfies the spec's constraints on them
(notes/assumptions/3.md). -/
structure Config where
  /-- `E`: the forward block cipher, a total function of key bytes and block (R6). It is applied only to
  keys whose length `keySizeOk` accepts. -/
  cipher : List Byte → Block → Block
  /-- Which lengths other than 32 are in `KEY_SIZES` (R7). -/
  otherKeySize : Nat → Bool
  /-- `FIXED_SUBKEY` (R8). -/
  fixedSubkey : Block
  /-- `BUF_SIZE` less its least value 44 (R9): a number from 0 to 2^28 - 44. -/
  bufExtra : Fin 268435413
  /-- FREE VALUE: `LenBlock(n)` for `n ≥ 2^29`, where 41_field_digest.md R145 defines no value
  (notes/assumptions/7.md). -/
  longLenBlock : Nat → Block
deriving Inhabited

/-- The parameters of the machine. Opaque: nothing about them can be evaluated or proved beyond what
holds of every `Config` (92_eei_decisions.md D2 to D5). -/
opaque Config.chosen : Config

/-- `BUF_SIZE`, with `44 ≤ BUF_SIZE ≤ 2^28` (00_scope.md R9). -/
def Config.bufSize (c : Config) : Nat := c.bufExtra.val + 44

/-- `n ∈ KEY_SIZES`, with `32 ∈ KEY_SIZES ⊆ {1, ..., 32}` (00_scope.md R7). -/
def Config.keySizeOk (c : Config) (n : Nat) : Bool :=
  n == 32 || (decide (1 ≤ n) && decide (n ≤ 32) && c.otherKeySize n)

end Sys2Proof
end

