-- ==== Sys2Proof/Machine/State.lean ====
section
/-! DEFINITION. The state of PT-CORE as plain data (10_state.md R20), its reset value (R42), and the
reasons a step can stop. -/

namespace Sys2Proof.Machine

/-- What the outside world does to PT-CORE in one step: a host operation of 43_system.md R200 or a reset
(70_reset_and_hazards.md R250). -/
inductive HostEvent where
  /-- `HRD(A)`: host read of one byte (43_system.md R201). -/
  | hrd (a : Addr)
  /-- `HWR(A, v)`: host write of one byte (43_system.md R202). -/
  | hwr (a : Addr) (v : Byte)
  /-- The reset event (70_reset_and_hazards.md R250). -/
  | reset
deriving DecidableEq, Repr

/-- A byte buffer as (offset, byte) cells in canonical form: offsets strictly rising, no cell equal to
what an unlisted offset reads as (notes/assumptions/5.md). -/
abbrev Memory := List Host.Cell

/-- The working registers (10_state.md R33 to R36): hidden, live only inside a command (R37). -/
structure Work where
  /-- CTR: the counter register of the keystream generator (R33). -/
  ctr : Block
  /-- S: the keystream block that `E` returned for CTR (R34). -/
  s : Block
  /-- ACC: the digest accumulator (R35). -/
  acc : Block
  /-- V: the rolling copy of the multiply's second operand (R36). -/
  v : Block
  /-- Z: the running result of the multiply (R36). -/
  z : Block
deriving DecidableEq, Repr

/-- All five working registers zero (30_encoding.md R95). -/
def Work.zero : Work := ⟨0, 0, 0, 0, 0⟩

/-- The whole state (10_state.md R20), and two fields of the model's own for the host's side of the port
(notes/assumptions/1.md). -/
structure State where
  /-- KEY (R21). -/
  key : Vector Byte 32
  /-- KEYLEN (R22). -/
  keylen : Byte
  /-- CTRBLK (R23). -/
  ctrblk : Vector Byte 16
  /-- NONCE (R24). -/
  nonce : Vector Byte 12
  /-- LEN (R25). -/
  len : Word32
  /-- OLEN (R26). -/
  olen : Word32
  /-- ECNT (R27). -/
  ecnt : Word32
  /-- STATUS.DONE (R28). -/
  done : Bool
  /-- STATUS.AUTH (R28). -/
  auth : Bool
  /-- STATUS.ERR (R28). -/
  err : BitVec 4
  /-- IBUF by offset (R30). -/
  ibuf : Memory
  /-- OBUF by offset (R31). -/
  obuf : Memory
  /-- CTR, S, ACC, V, Z (R33 to R37). -/
  work : Work
  /-- MODEL'S OWN: what the host does next, oldest first (notes/assumptions/1.md). -/
  script : List HostEvent
  /-- MODEL'S OWN: the bytes the host's reads returned, newest first (notes/assumptions/1.md). -/
  reads : List Byte
deriving DecidableEq, Repr

/-- The reset state: every byte and bit of the record of R20 is zero (10_state.md R42). The host has
issued nothing yet (DESIGN CHOICE, notes/assumptions/1.md). -/
def State.reset : State where
  key := Vector.replicate 32 0
  keylen := 0
  ctrblk := Vector.replicate 16 0
  nonce := Vector.replicate 12 0
  len := 0
  olen := 0
  ecnt := 0
  done := false
  auth := false
  err := 0
  ibuf := []
  obuf := []
  work := Work.zero
  script := []
  reads := []

/-- The errors a command reports in STATUS.ERR (60_exceptions.md R221). They are outcomes of a command,
never a stop of the machine (R220). -/
inductive CmdError where
  /-- `InvalidKey`, R222. -/
  | invalidKey
  /-- `InvalidEnvelope`, R223. -/
  | invalidEnvelope
  /-- `AuthenticationFailure`, R224. -/
  | authenticationFailure
  /-- `BadLength`, R225. -/
  | badLength
  /-- `BadCommand`, R226. -/
  | badCommand
deriving DecidableEq, Repr

/-- Faults. There are none: the spec has no trap and no stuck state (60_exceptions.md R220;
93_implementation_defined.md, end of section 1), and its errors are next states (`CmdError`). Safe. -/
inductive Fault
deriving DecidableEq, Repr

/-- Refusals: steps the spec gives no meaning. -/
inductive Refusal where
  /-- Raised by an arm of `exec` whose command has no meaning yet. Safe. -/
  | notModelled (mnemonic : String)
  /-- Raised by `hostRead` for an address with no location: 20_memory.md R67 gives such an access no
  meaning and no step. Safe. -/
  | unmappedRead (a : Addr)
  /-- Raised by `hostWrite` for an address with no location (20_memory.md R67). Safe. -/
  | unmappedWrite (a : Addr)
deriving DecidableEq, Repr

end Sys2Proof.Machine
end

