-- ==== Sys2Proof/Machine/Flags.lean ====
section
/-! DEFINITION. The STATUS byte and its three fields. PT-CORE has no arithmetic flag (10_state.md R29). -/

namespace Sys2Proof.Machine

/-- The value of STATUS.ERR for an error (60_exceptions.md R221); 0 is no error. -/
def CmdError.code : CmdError → BitVec 4
  | .invalidKey => 1
  | .invalidEnvelope => 2
  | .authenticationFailure => 3
  | .badLength => 4
  | .badCommand => 5

/-- STATUS as the host reads it: DONE in bit 7, zeros in bits 6:5, AUTH in bit 4, ERR in bits 3:0
(10_state.md R28; 43_system.md R201). -/
def State.status (s : State) : Byte :=
  BitVec.ofBool s.done ++ 0#2 ++ BitVec.ofBool s.auth ++ s.err

/-- The STATUS part of the prologue: ERR and AUTH cleared, DONE kept (30_encoding.md R95). -/
def State.clearOutcome (s : State) : State := { s with err := 0, auth := false }

/-- The STATUS part of the success epilogue: AUTH as told, DONE set, ERR kept (30_encoding.md R97). -/
def State.setSuccess (auth : Bool) (s : State) : State := { s with auth := auth, done := true }

/-- The STATUS part of the failure exit: ERR the code, AUTH cleared, DONE set (60_exceptions.md R228). -/
def State.setFailure (e : CmdError) (s : State) : State :=
  { s with err := e.code, auth := false, done := true }

end Sys2Proof.Machine
end

