-- ==== Sys2Proof/Machine/Ops.lean ====
section
/-! DEFINITION. The shared operations: byte order, buffers, the register map, and the frame every command
runs in (prologue, success epilogue, failure exit). -/

namespace Sys2Proof

/-! ### Byte order (00_scope.md R13 to R16; 20_memory.md R62) -/

/-- `int(s)`: the big-endian number of a byte sequence (00_scope.md R14). -/
def intOf (s : List Byte) : Nat := s.foldl (fun n b => 256 * n + b.toNat) 0

/-- `be32`: the four bytes of a 32-bit number, most significant first (00_scope.md R14). -/
def be32 (x : Word32) : Vector Byte 4 :=
  #v[x.extractLsb' 24 8, x.extractLsb' 16 8, x.extractLsb' 8 8, x.extractLsb' 0 8]

/-- The 32-bit number of four big-endian bytes (20_memory.md R62 (e)). -/
def word32 (b : Vector Byte 4) : Word32 := BitVec.ofNat 32 (intOf b.toList)

/-- `ceil(n / 16)` (00_scope.md R16). -/
def ceil16 (n : Nat) : Nat := (n + 15) / 16

/-- Bytewise exclusive or of two byte sequences (00_scope.md R13). -/
def xorBytes (a b : List Byte) : List Byte := List.zipWith (· ^^^ ·) a b

/-- `s[a..b)`: the half-open slice of a byte sequence (00_scope.md R13). -/
def slice (s : List Byte) (a b : Nat) : List Byte := (s.drop a).take (b - a)

/-- Byte `i` of a block, byte 0 the most significant (00_scope.md R15). -/
def Block.byte (b : Block) (i : Nat) : Byte := b.extractLsb' (8 * (15 - i)) 8

/-- The 16 bytes of a block, byte 0 first. -/
def Block.bytes (b : Block) : List Byte := (List.range 16).map (Block.byte b)

/-- The block of the first 16 bytes of a sequence, zero bytes standing for missing ones on the right
(the zero padding of 41_field_digest.md R144). -/
def Block.ofBytes (l : List Byte) : Block :=
  (List.range 16).foldl (fun (acc : Block) i => (acc <<< 8) ||| (l.getD i 0).setWidth 128) 0

namespace Machine

/-! ### Buffers (10_state.md R30, R31) -/

/-- What an unlisted byte reads as: zero, the reset contents of both buffers (10_state.md R42). -/
def Memory.unlisted : Byte := 0

/-- Read one byte of a buffer. -/
def Memory.read : Memory → Nat → Byte
  | [], _ => Memory.unlisted
  | (b, v) :: m, a => if b = a then v else Memory.read m a

/-- Write one byte of a buffer, keeping the canonical form. -/
def Memory.write : Memory → Nat → Byte → Memory
  | [], a, v => if v = Memory.unlisted then [] else [(a, v)]
  | (b, w) :: m, a, v =>
    if a < b then (if v = Memory.unlisted then (b, w) :: m else (a, v) :: (b, w) :: m)
    else if a = b then (if v = Memory.unlisted then m else (a, v) :: m)
    else (b, w) :: Memory.write m a v

/-- The canonical form: offsets strictly rising and no cell that an unlisted offset would read alike. -/
abbrev Memory.wf (m : Memory) : Prop :=
  m.Pairwise (fun c d => c.1 < d.1) ∧ ∀ c ∈ m, c.2 ≠ Memory.unlisted

/-- Read `n` bytes from offset `a` on (00_scope.md R17). -/
def Memory.readBytes (m : Memory) (a n : Nat) : List Byte :=
  (List.range n).map fun i => Memory.read m (a + i)

/-- Write a byte sequence from offset `a` on (00_scope.md R17). -/
def Memory.writeBytes : Memory → Nat → List Byte → Memory
  | m, _, [] => m
  | m, a, v :: vs => Memory.writeBytes (Memory.write m a v) (a + 1) vs

/-- A buffer whose bytes are all zero. -/
def Memory.zero : Memory := []

/-! ### The register map and the host's byte accesses (10_state.md R40, R41; 20_memory.md R60) -/

/-- What a mapped host address names. -/
inductive Location where
  | cmd
  | status
  | keylen
  | len (i : Fin 4)
  | olen (i : Fin 4)
  | ecnt (i : Fin 4)
  | ctrblk (i : Fin 16)
  | nonce (i : Fin 12)
  | key (i : Fin 32)
  | ibuf (off : Nat)
  | obuf (off : Nat)
deriving DecidableEq, Repr

/-- Space 0: the register at an offset; `none` for the reserved offsets (10_state.md R40). -/
def registerAt (off : Nat) : Option Location :=
  if off = 0x00 then some .cmd
  else if off = 0x01 then some .status
  else if off = 0x02 then some .keylen
  else if off < 0x04 then none
  else if off < 0x08 then some (.len (Fin.ofNat 4 (off - 0x04)))
  else if off < 0x0C then some (.olen (Fin.ofNat 4 (off - 0x08)))
  else if off < 0x10 then some (.ecnt (Fin.ofNat 4 (off - 0x0C)))
  else if off < 0x20 then some (.ctrblk (Fin.ofNat 16 (off - 0x10)))
  else if off < 0x2C then some (.nonce (Fin.ofNat 12 (off - 0x20)))
  else if off < 0x40 then none
  else if off < 0x60 then some (.key (Fin.ofNat 32 (off - 0x40)))
  else none

/-- The location of a host address: bits 31:30 select the space, bits 29:0 are the offset; `none` for an
unmapped address (20_memory.md R60, R67). -/
def locate (c : Config) (a : Addr) : Option Location :=
  let off := (a.extractLsb' 0 30).toNat
  match (a.extractLsb' 30 2).toNat with
  | 0 => registerAt off
  | 1 => if off < c.bufSize then some (.ibuf off) else none
  | 2 => if off < c.bufSize then some (.obuf off) else none
  | _ => none

/-- The byte a host read of a location returns; CMD and KEY are write-only and read as zero
(43_system.md R201; 10_state.md R41). -/
def State.readLocation (s : State) : Location → Byte
  | .cmd => 0
  | .status => s.status
  | .keylen => s.keylen
  | .len i => (be32 s.len)[i]
  | .olen i => (be32 s.olen)[i]
  | .ecnt i => (be32 s.ecnt)[i]
  | .ctrblk i => s.ctrblk[i]
  | .nonce i => s.nonce[i]
  | .key _ => 0
  | .ibuf off => Memory.read s.ibuf off
  | .obuf off => Memory.read s.obuf off

/-- The state after a host write to a location other than CMD, which stores nothing; writes to the
read-only STATUS, OLEN, ECNT and OBUF are ignored (43_system.md R202; 10_state.md R41). -/
def State.writeLocation (s : State) (v : Byte) : Location → State
  | .cmd => s
  | .status => s
  | .keylen => { s with keylen := v }
  | .len i => { s with len := word32 ((be32 s.len).set i v) }
  | .olen _ => s
  | .ecnt _ => s
  | .ctrblk i => { s with ctrblk := s.ctrblk.set i v }
  | .nonce i => { s with nonce := s.nonce.set i v }
  | .key i => { s with key := s.key.set i v }
  | .ibuf off => { s with ibuf := Memory.write s.ibuf off v }
  | .obuf _ => s

/-! ### The frame of a command (30_encoding.md R95 to R97; 60_exceptions.md R228) -/

/-- The state with the working registers as a unit left them (10_state.md R33 to R37). -/
def State.setWork (w : Work) (s : State) : State := { s with work := w }

/-- The prologue (30_encoding.md R95). -/
def State.prologue (s : State) : State :=
  { s.clearOutcome with olen := 0, ecnt := 0, obuf := Memory.zero, work := Work.zero }

/-- The success epilogue, with the output bytes, the number of evaluations of `E` and the value of AUTH
(30_encoding.md R97). -/
def State.epilogue (out : List Byte) (cnt : Nat) (auth : Bool) (s : State) : State :=
  { s.setSuccess auth with
    obuf := Memory.writeBytes s.obuf 0 out
    olen := BitVec.ofNat 32 out.length
    ecnt := BitVec.ofNat 32 cnt
    work := Work.zero }

/-- The failure exit: the one way every error is taken (60_exceptions.md R228). ECNT takes the count only
for `AuthenticationFailure`. -/
def State.failExit (e : CmdError) (cnt : Nat) (s : State) : State :=
  { s.setFailure e with
    olen := 0
    obuf := Memory.zero
    ecnt := if e = .authenticationFailure then BitVec.ofNat 32 cnt else 0
    work := Work.zero }

/-- How the body of a command ends: at the first step that fails, or with its output
(30_encoding.md R96). The state holds the operands and the working registers at that point. -/
inductive BodyResult where
  | fail (e : CmdError) (cnt : Nat) (s : State)
  | done (out : List Byte) (cnt : Nat) (auth : Bool) (s : State)

/-- The end of a command: failure exit or success epilogue. -/
def BodyResult.finish : BodyResult → State
  | .fail e cnt s => s.failExit e cnt
  | .done out cnt auth s => s.epilogue out cnt auth

/-- A whole command: prologue, body, and the exit the body asks for (30_encoding.md R95 to R97). -/
def runCommand (body : State → BodyResult) (s : State) : Host.Outcome State Fault Refusal :=
  .next (body s.prologue).finish

/-- What a reserved command byte does: the prologue, then `BadCommand` (30_encoding.md R92;
60_exceptions.md R226). -/
def badCommand (s : State) : Host.Outcome State Fault Refusal :=
  runCommand (fun s => .fail .badCommand 0 s) s

/-- The reset event: every part of the record of 10_state.md R20 takes its reset value
(70_reset_and_hazards.md R250). The host's own script and the bytes it has read are not PT-CORE's and
stay (notes/assumptions/2.md). -/
def State.applyReset (s : State) : State :=
  { State.reset with script := s.script, reads := s.reads }

end Machine
end Sys2Proof
end

