-- ==== Sys2Proof/Machine/Operands.lean ====
section
/-! DEFINITION. The operands of the commands: what each reads from the registers and IBUF
(30_encoding.md R93), and the values assembled from parts (R94). -/

namespace Sys2Proof.Machine

/-- `IBUF[0..LEN)` (20_memory.md R71). -/
def State.input (s : State) : List Byte := Memory.readBytes s.ibuf 0 s.len.toNat

/-- The counter block operand of `KS.GEN` and `KS.APPLY` (10_state.md R23). -/
def State.counterOperand (s : State) : Block := Block.ofBytes s.ctrblk.toList

/-- `KeyOf()`: the key `KEY[0..KEYLEN)` when KEYLEN is an accepted length, `none` for `InvalidKey`
(40_keystream.md R118). -/
def State.keyOf (c : Config) (s : State) : Option (List Byte) :=
  if c.keySizeOk s.keylen.toNat then some (s.key.toList.take s.keylen.toNat) else none

/-- `CounterBlock(nonce, d)`: `nonce ‖ 00 00 00 ‖ d` for a 12-byte nonce (42_envelope.md R171). -/
def counterBlock (nonce : List Byte) (d : Byte) : Block := Block.ofBytes (nonce ++ [0, 0, 0, d])

/-- The discriminator of the payload keystream (42_envelope.md R172). -/
def payloadDiscriminator : Byte := 2

/-- The discriminator of the tag keystream (42_envelope.md R172). -/
def tagDiscriminator : Byte := 1

/-- `Blocks(data)`: `ceil(n/16)` blocks, the last one zero-padded on the right (41_field_digest.md R144). -/
def blocks (data : List Byte) : List Block :=
  (List.range (ceil16 data.length)).map fun k => Block.ofBytes (slice data (16 * k) (16 * k + 16))

/-- `LenBlock(n)`: `0^12 ‖ be32(8 × n)` for `n < 2^29`; a free value of the configuration beyond, where
the spec defines none and no command comes (41_field_digest.md R145; notes/assumptions/7.md). -/
def lenBlock (c : Config) (n : Nat) : Block :=
  if n < 2 ^ 29 then 0#96 ++ BitVec.ofNat 32 (8 * n) else c.longLenBlock n

/-- The parts of an envelope (42_envelope.md R170). -/
structure Envelope where
  nonce : List Byte
  ct : List Byte
  tag : List Byte
deriving DecidableEq, Repr

/-- `Split(env)`, for an envelope of 28 bytes or more (42_envelope.md R173). -/
def split (env : List Byte) : Envelope where
  nonce := slice env 0 12
  ct := slice env 12 (env.length - 16)
  tag := slice env (env.length - 16) env.length

end Sys2Proof.Machine
end

