-- ==== Sys2Proof/Machine/Field.lean ====
section
/-! DEFINITION. The GF(2^128) multiply-and-reduce unit, the field digest, and their commands `GF.MUL` and
`FD.DIGEST` (41_field_digest.md). -/

namespace Sys2Proof.Machine

/-- `ShiftStep(v)`: shift the 128-bit integer right by one; if the bit shifted out was 1, xor 0xE1 into
the most significant byte (41_field_digest.md R141). -/
def shiftStep (v : Block) : Block :=
  (v >>> 1) ^^^ (if v.getLsbD 0 then 0xE1#128 <<< 120 else 0)

/-- Whether bit step `j` of byte `i` of the scanned operand is set: the mask is `1 << (7 - j)`
(41_field_digest.md R142, R143). -/
def scanBit (a : Block) (i j : Nat) : Bool := Block.byte a i &&& (1#8 <<< (7 - j)) != 0

/-- One step of the multiply: Z takes V if the scanned bit is set, then V is shifted, taken or not
(41_field_digest.md R142). -/
def mulStep (a : Block) (i j : Nat) (w : Work) : Work :=
  { w with z := if scanBit a i j then w.z ^^^ w.v else w.z, v := shiftStep w.v }

/-- The 128 steps of `GfMul(a, b)` on the working registers: Z from zero, V from `b`, bytes of `a` in
order, bits most significant first (41_field_digest.md R142). -/
def mulUnit (a b : Block) (w : Work) : Work :=
  (List.range 16).foldl (fun w i => (List.range 8).foldl (fun w j => mulStep a i j w) w)
    { w with z := 0, v := b }

/-- `GfMul(a, b)` as a function: the result register of the unit (41_field_digest.md R142). -/
def gfMul (a b : Block) : Block := (mulUnit a b Work.zero).z

/-- Absorb one block: xor it into ACC, then multiply ACC, the scanned operand, by the subkey
(41_field_digest.md R146, R147). -/
def absorb (h : Block) (w : Work) (b : Block) : Work :=
  let w := { w with acc := w.acc ^^^ b }
  let w := mulUnit w.acc h w
  { w with acc := w.z }

/-- `Digest(h, data)` on the working registers: ACC from zero, the data blocks in order, then the length
block (41_field_digest.md R146). -/
def digestUnit (c : Config) (h : Block) (data : List Byte) (w : Work) : Work :=
  (blocks data ++ [lenBlock c data.length]).foldl (absorb h) { w with acc := 0 }

/-- `Digest(h, data)` as a function: the accumulator of the unit (41_field_digest.md R146). -/
def digest (c : Config) (h : Block) (data : List Byte) : Block := (digestUnit c h data Work.zero).acc

/-- The body of `GF.MUL`: the operands are `IBUF[0..16)` and `IBUF[16..32)`, whatever LEN is
(41_field_digest.md R151). -/
def gfMulBody (s : State) : BodyResult :=
  let a := Block.ofBytes (Memory.readBytes s.ibuf 0 16)
  let b := Block.ofBytes (Memory.readBytes s.ibuf 16 16)
  let w := mulUnit a b s.work
  .done (Block.bytes w.z) 0 false (s.setWork w)

/-- The body of `FD.DIGEST`: the digest of `IBUF[0..LEN)` under the fixed subkey
(41_field_digest.md R152). -/
def fdDigestBody (c : Config) (s : State) : BodyResult :=
  if c.bufSize < s.len.toNat then .fail .badLength 0 s
  else
    let w := digestUnit c c.fixedSubkey s.input s.work
    .done (Block.bytes w.acc) 0 false (s.setWork w)

/-- `GF.MUL` (41_field_digest.md R151). -/
def execGfMul (s : State) : Host.Outcome State Fault Refusal := runCommand gfMulBody s

/-- `FD.DIGEST` (41_field_digest.md R152). -/
def execFdDigest (s : State) : Host.Outcome State Fault Refusal :=
  runCommand (fdDigestBody Config.chosen) s

end Sys2Proof.Machine
end

