-- ==== Sys2Proof/Machine/Keystream.lean ====
section
/-! DEFINITION. The keystream generator and its commands `KS.GEN` and `KS.APPLY` (40_keystream.md). -/

namespace Sys2Proof.Machine

/-- `Inc32(c)`: bytes 12 to 15 plus 1 modulo 2^32 as a big-endian number, bytes 0 to 11 unchanged
(40_keystream.md R111; the wrap is that of 90_conflicts.md C1, notes/assumptions/6.md). -/
def inc32 (c : Block) : Block := c.extractLsb' 32 96 ++ (c.extractLsb' 0 32 + 1#32)

/-- What a run of the keystream unit leaves: its output, how often it evaluated `E`, and the working
registers. -/
structure KeystreamRun where
  out : List Byte
  cnt : Nat
  work : Work
deriving DecidableEq, Repr

/-- The loop of `KeystreamApply` over the data not yet used: encrypt CTR into S, xor the next 16 bytes or
what is left of them, and increment CTR only if more input remains (40_keystream.md R113). The first
argument bounds the number of blocks. -/
def keystreamLoop (c : Config) (key : List Byte) : Nat → List Byte → Work → KeystreamRun
  | 0, _, w => ⟨[], 0, w⟩
  | fuel + 1, data, w =>
    let w := { w with s := c.cipher key w.ctr }
    let out := xorBytes (data.take 16) (Block.bytes w.s)
    if data.length ≤ 16 then ⟨out, 1, w⟩
    else
      let r := keystreamLoop c key fuel (data.drop 16) { w with ctr := inc32 w.ctr }
      ⟨out ++ r.out, 1 + r.cnt, r.work⟩

/-- `KeystreamApply(key, cb, data)` on the working registers; with no data, `E` is not evaluated and CTR
is not loaded (40_keystream.md R113, R114). -/
def keystreamUnit (c : Config) (key : List Byte) (cb : Block) (data : List Byte) (w : Work) : KeystreamRun :=
  if data.length = 0 then ⟨[], 0, w⟩
  else keystreamLoop c key (ceil16 data.length) data { w with ctr := cb }

/-- `KeystreamApply(key, cb, data)` as a function: the output of the unit (40_keystream.md R113). -/
def keystreamApply (c : Config) (key : List Byte) (cb : Block) (data : List Byte) : List Byte :=
  (keystreamUnit c key cb data Work.zero).out

/-- The body that `KS.GEN` and `KS.APPLY` share: length bound, key check, keystream
(40_keystream.md R120, R121). -/
def keystreamBody (c : Config) (data : State → List Byte) (s : State) : BodyResult :=
  if c.bufSize < s.len.toNat then .fail .badLength 0 s
  else
    match s.keyOf c with
    | none => .fail .invalidKey 0 s
    | some key =>
      let r := keystreamUnit c key s.counterOperand (data s) s.work
      .done r.out r.cnt false (s.setWork r.work)

/-- The body of `KS.GEN`: the data is LEN zero bytes, IBUF is not read (40_keystream.md R120). -/
def ksGenBody (c : Config) : State → BodyResult :=
  keystreamBody c fun s => List.replicate s.len.toNat 0

/-- The body of `KS.APPLY`: the data is `IBUF[0..LEN)` (40_keystream.md R121). -/
def ksApplyBody (c : Config) : State → BodyResult :=
  keystreamBody c State.input

/-- `KS.GEN` (40_keystream.md R120). -/
def execKsGen (s : State) : Host.Outcome State Fault Refusal := runCommand (ksGenBody Config.chosen) s

/-- `KS.APPLY` (40_keystream.md R121). -/
def execKsApply (s : State) : Host.Outcome State Fault Refusal := runCommand (ksApplyBody Config.chosen) s

end Sys2Proof.Machine
end

