-- ==== Sys2Proof/Machine/Envelope.lean ====
section
/-! DEFINITION. The AEAD envelope controller and its commands `ENV.OPEN` and `ENV.SEAL`
(42_envelope.md). -/

namespace Sys2Proof.Machine

/-- The tag of a ciphertext: its digest under the fixed subkey, encrypted with the tag keystream. The
working registers pass from the digest to the generator (42_envelope.md R174, R175). -/
def tagUnit (c : Config) (key nonce ct : List Byte) (w : Work) : KeystreamRun :=
  let w := digestUnit c c.fixedSubkey ct w
  keystreamUnit c key (counterBlock nonce tagDiscriminator) (Block.bytes w.acc) w

/-- What a run of `Open` leaves: the decrypted payload, whether the tags are equal in all 16 bytes
(42_envelope.md R176), the evaluations of `E`, and the working registers. -/
structure OpenRun where
  pt : List Byte
  tagOk : Bool
  cnt : Nat
  work : Work
deriving DecidableEq, Repr

/-- `Open(key, env)` on the working registers: payload keystream, digest of the ciphertext, tag
keystream, compare, in that order (42_envelope.md R174). -/
def openUnit (c : Config) (key env : List Byte) (w : Work) : OpenRun :=
  let e := split env
  let p := keystreamUnit c key (counterBlock e.nonce payloadDiscriminator) e.ct w
  let t := tagUnit c key e.nonce e.ct p.work
  ⟨p.out, t.out = e.tag, p.cnt + t.cnt, t.work⟩

/-- `Open(key, env)` as a function: the plaintext, or `none` for `AuthenticationFailure`
(42_envelope.md R174). -/
def openEnvelope (c : Config) (key env : List Byte) : Option (List Byte) :=
  let r := openUnit c key env Work.zero
  if r.tagOk then some r.pt else none

/-- `Seal(key, nonce, pt)` on the working registers: payload keystream, digest of the ciphertext, tag
keystream; the output is `nonce ‖ ct ‖ tag` (42_envelope.md R175). -/
def sealUnit (c : Config) (key nonce pt : List Byte) (w : Work) : KeystreamRun :=
  let p := keystreamUnit c key (counterBlock nonce payloadDiscriminator) pt w
  let t := tagUnit c key nonce p.out p.work
  ⟨nonce ++ p.out ++ t.out, p.cnt + t.cnt, t.work⟩

/-- `Seal(key, nonce, pt)` as a function (42_envelope.md R175). -/
def sealEnvelope (c : Config) (key nonce pt : List Byte) : List Byte :=
  (sealUnit c key nonce pt Work.zero).out

/-- The body of `ENV.OPEN`: length bound, envelope minimum, key check, `Open`, tag compare
(42_envelope.md R179). The plaintext leaves the body only on a match (R177). -/
def envOpenBody (c : Config) (s : State) : BodyResult :=
  if c.bufSize < s.len.toNat then .fail .badLength 0 s
  else if s.len.toNat < 28 then .fail .invalidEnvelope 0 s
  else
    match s.keyOf c with
    | none => .fail .invalidKey 0 s
    | some key =>
      let r := openUnit c key s.input s.work
      if r.tagOk then .done r.pt r.cnt true (s.setWork r.work)
      else .fail .authenticationFailure r.cnt (s.setWork r.work)

/-- The body of `ENV.SEAL`: length bound (the envelope must fit OBUF), key check, `Seal`
(42_envelope.md R180). -/
def envSealBody (c : Config) (s : State) : BodyResult :=
  if c.bufSize - 28 < s.len.toNat then .fail .badLength 0 s
  else
    match s.keyOf c with
    | none => .fail .invalidKey 0 s
    | some key =>
      let r := sealUnit c key s.nonce.toList s.input s.work
      .done r.out r.cnt false (s.setWork r.work)

/-- `ENV.OPEN` (42_envelope.md R179). -/
def execEnvOpen (s : State) : Host.Outcome State Fault Refusal := runCommand (envOpenBody Config.chosen) s

/-- `ENV.SEAL` (42_envelope.md R180). -/
def execEnvSeal (s : State) : Host.Outcome State Fault Refusal := runCommand (envSealBody Config.chosen) s

end Sys2Proof.Machine
end

