-- ==== Sys2Proof/Machine/System.lean ====
section
/-! DEFINITION. The housekeeping command `CLR` (43_system.md). -/

namespace Sys2Proof.Machine

/-- The body of `CLR`: zero every operand and IBUF; the output is empty (43_system.md R203). -/
def clrBody (s : State) : BodyResult :=
  .done [] 0 false
    { s with
      key := Vector.replicate 32 0
      keylen := 0
      ctrblk := Vector.replicate 16 0
      nonce := Vector.replicate 12 0
      len := 0
      ibuf := Memory.zero }

/-- `CLR` (43_system.md R203). -/
def execClr (s : State) : Host.Outcome State Fault Refusal := runCommand clrBody s

end Sys2Proof.Machine
end

