-- ==== Sys2Proof/Machine/Dispatch.lean ====
section
/-! DEFINITION. The dispatch of a decoded command to its meaning, one arm per constructor. -/

namespace Sys2Proof.Machine

def exec (i : Instr) (s : State) : Host.Outcome State Fault Refusal :=
  match i with
  | .clr => Sys2Proof.Machine.execClr s
  | .ksGen => Sys2Proof.Machine.execKsGen s
  | .ksApply => Sys2Proof.Machine.execKsApply s
  | .gfMul => Sys2Proof.Machine.execGfMul s
  | .fdDigest => Sys2Proof.Machine.execFdDigest s
  | .envOpen => Sys2Proof.Machine.execEnvOpen s
  | .envSeal => Sys2Proof.Machine.execEnvSeal s

end Sys2Proof.Machine
end

