-- ==== Sys2Proof/Machine/Port.lean ====
section
/-! DEFINITION. The host port: the two host operations and the reset event (43_system.md R200 to R202;
70_reset_and_hazards.md R250). -/

namespace Sys2Proof.Machine

/-- `HRD(A)`: the byte of the location goes to the host and nothing else changes; an unmapped address
has no meaning (43_system.md R201; 20_memory.md R66, R67). -/
def hostRead (c : Config) (a : Addr) (s : State) : Host.Outcome State Fault Refusal :=
  match locate c a with
  | some l => .next { s with reads := s.readLocation l :: s.reads }
  | none => .refused (.unmappedRead a)

/-- A write of byte `v` to CMD: it is not stored, it runs the command it encodes, or fails with
`BadCommand` (30_encoding.md R90, R92). -/
def commandWrite (v : Byte) (s : State) : Host.Outcome State Fault Refusal :=
  match decode [v] with
  | .ok (i, _) => exec i s
  | .error _ => badCommand s

/-- `HWR(A, v)`: the byte is stored in the location, or runs a command if the location is CMD; an
unmapped address has no meaning (43_system.md R202; 20_memory.md R66, R67). -/
def hostWrite (c : Config) (a : Addr) (v : Byte) (s : State) : Host.Outcome State Fault Refusal :=
  match locate c a with
  | some .cmd => commandWrite v s
  | some l => .next (s.writeLocation v l)
  | none => .refused (.unmappedWrite a)

/-- One event on the port. -/
def portEvent (c : Config) (e : HostEvent) (s : State) : Host.Outcome State Fault Refusal :=
  match e with
  | .hrd a => hostRead c a s
  | .hwr a v => hostWrite c a v s
  | .reset => .next s.applyReset

/-- Take the host's next event off its script and run it; with no event left PT-CORE does nothing
(10_state.md R38, R39; notes/assumptions/1.md). -/
def nextEvent (c : Config) (s : State) : Host.Outcome State Fault Refusal :=
  match s.script with
  | [] => .next s
  | e :: rest => portEvent c e { s with script := rest }

/-- Put a command byte where the next step takes its command from: a host write to CMD at the head of the
script. -/
def State.withCommandByte (s : State) (v : Byte) : State :=
  { s with script := .hwr 0 v :: s.script }

end Sys2Proof.Machine
end

