-- ==== Sys2Proof/Machine/Step.lean ====
section
/-! DEFINITION. One step of the machine: one host access, or a reset (20_memory.md R73). -/

namespace Sys2Proof.Machine

/-- One step: the host's next event (`nextEvent`). -/
def step (s : State) : Host.Outcome State Fault Refusal := nextEvent Config.chosen s

/-- The state whose next step runs the command that the low `nbits` bits of `w` encode: PT-CORE fetches
nothing, so the command comes as the host's next write to CMD (10_state.md R39; notes/assumptions/1.md). -/
def State.withFetchWord (s : State) (nbits w : Nat) : State := s.withCommandByte (tableByte nbits w)

end Sys2Proof.Machine
end

