-- ==== Sys2Proof/Machine/Script.lean ====
section
/-! DEFINITION. The host-script lines and pseudo-instructions of 30_encoding.md R99 and R100, and their
expansion into host operations. -/

namespace Sys2Proof.Machine

/-- A line of a host script (30_encoding.md R99, R100). -/
inductive ScriptLine where
  /-- `wr <addr>, <byte>`. -/
  | wr (a : Addr) (v : Byte)
  /-- `rd <addr>`. -/
  | rd (a : Addr)
  /-- `cmd <mnemonic>`. -/
  | cmd (i : Instr)
  /-- `key <hex of n bytes>`. -/
  | key (b : List Byte)
  /-- `keylen <n>`. -/
  | keylen (n : Nat)
  /-- `ctrblk <hex of 16 bytes>`. -/
  | ctrblk (b : List Byte)
  /-- `nonce <hex of 12 bytes>`. -/
  | nonce (b : List Byte)
  /-- `len <n>`. -/
  | len (n : Nat)
  /-- `ibuf <hex of n bytes>`. -/
  | ibuf (b : List Byte)
  /-- `in <hex of n bytes>`. -/
  | input (b : List Byte)
  /-- `status`. -/
  | status
  /-- `olen`. -/
  | olen
  /-- `ecnt`. -/
  | ecnt
  /-- `obuf <n>`. -/
  | obuf (n : Nat)
deriving DecidableEq, Repr

/-- Writes of a byte sequence to ascending addresses from `base` on. -/
def writesAt (base : Addr) (b : List Byte) : List HostEvent :=
  b.mapIdx fun i v => .hwr (base + BitVec.ofNat 32 i) v

/-- Reads of `n` ascending addresses from `base` on. -/
def readsAt (base : Addr) (n : Nat) : List HostEvent :=
  (List.range n).map fun i => .hrd (base + BitVec.ofNat 32 i)

/-- The four writes of `len <n>`, most significant byte first. -/
def lenWrites (n : Nat) : List HostEvent := writesAt 0x04 (be32 (BitVec.ofNat 32 n)).toList

/-- The host operations a script line stands for (30_encoding.md R99, R100). -/
def ScriptLine.expand : ScriptLine → List HostEvent
  | .wr a v => [.hwr a v]
  | .rd a => [.hrd a]
  | .cmd i => [.hwr 0x00 (encodeByte i)]
  | .key b => writesAt 0x40 b ++ [.hwr 0x02 (BitVec.ofNat 8 b.length)]
  | .keylen n => [.hwr 0x02 (BitVec.ofNat 8 n)]
  | .ctrblk b => writesAt 0x10 b
  | .nonce b => writesAt 0x20 b
  | .len n => lenWrites n
  | .ibuf b => writesAt 0x40000000 b
  | .input b => writesAt 0x40000000 b ++ lenWrites b.length
  | .status => [.hrd 0x01]
  | .olen => readsAt 0x08 4
  | .ecnt => readsAt 0x0C 4
  | .obuf n => readsAt 0x80000000 n

/-- The encoding of a script: its host operations in order (30_encoding.md R99). -/
def expandScript (lines : List ScriptLine) : List HostEvent := lines.flatMap ScriptLine.expand

end Sys2Proof.Machine
end

