-- ==== Sys2Proof/WellFormed.lean ====
section
/-! DEFINITION. Well-formedness of commands and of host-script lines. -/

namespace Sys2Proof

/-- Every command is well formed: the one format has no operand field that could be out of range
(30_encoding.md R90). -/
def Instr.wf : Instr → Bool
  | .clr => true
  | .ksGen => true
  | .ksApply => true
  | .gfMul => true
  | .fdDigest => true
  | .envOpen => true
  | .envSeal => true

/-- A script line a host may write (30_encoding.md R99, R100; 60_exceptions.md R237): mapped addresses
only, byte strings of the stated lengths, numbers that fit their registers. -/
def Machine.ScriptLine.wf (c : Config) : Machine.ScriptLine → Bool
  | .wr a _ => (Machine.locate c a).isSome
  | .rd a => (Machine.locate c a).isSome
  | .cmd i => i.wf
  | .key b => decide (b.length ≤ 32)
  | .keylen n => decide (n < 2 ^ 8)
  | .ctrblk b => decide (b.length = 16)
  | .nonce b => decide (b.length = 12)
  | .len n => decide (n < 2 ^ 32)
  | .ibuf b => decide (b.length ≤ c.bufSize)
  | .input b => decide (b.length ≤ c.bufSize)
  | .status => true
  | .olen => true
  | .ecnt => true
  | .obuf n => decide (n ≤ c.bufSize)

end Sys2Proof
end

