-- ==== Sys2Proof/Safety.lean ====
section
/-! DEFINITION. What the statements say about states: the outcomes of a command, the invariant of the
machine, and what the host may see. -/

namespace Sys2Proof.Machine

/-- The operand registers, IBUF and the host's side of the port are the same in both states. -/
structure SameOperands (s t : State) : Prop where
  key : t.key = s.key
  keylen : t.keylen = s.keylen
  ctrblk : t.ctrblk = s.ctrblk
  nonce : t.nonce = s.nonce
  len : t.len = s.len
  ibuf : ∀ a, Memory.read t.ibuf a = Memory.read s.ibuf a
  script : t.script = s.script
  reads : t.reads = s.reads

/-- The results of a command are the same in both states: STATUS, OLEN, ECNT and every byte of OBUF. -/
structure SameResults (s t : State) : Prop where
  done : t.done = s.done
  auth : t.auth = s.auth
  err : t.err = s.err
  olen : t.olen = s.olen
  ecnt : t.ecnt = s.ecnt
  obuf : ∀ a, Memory.read t.obuf a = Memory.read s.obuf a

/-- The same key length and the same key bytes `KEY[0..KEYLEN)`. -/
def SameKey (s t : State) : Prop :=
  t.keylen = s.keylen ∧ t.key.toList.take s.keylen.toNat = s.key.toList.take s.keylen.toNat

/-- The same first `n` bytes of IBUF. -/
def SameIbuf (s t : State) (n : Nat) : Prop := ∀ a < n, Memory.read t.ibuf a = Memory.read s.ibuf a

/-- `t` is the state after a command that succeeded from `s` with output `out`, `cnt` evaluations of `E`
and the given AUTH, and changed no operand (30_encoding.md R97; 10_state.md R31). -/
structure Succeeds (s t : State) (out : List Byte) (cnt : Nat) (auth : Bool) : Prop where
  status : t.done = true ∧ t.auth = auth ∧ t.err = 0
  statusByte : t.status = if auth then 0x90 else 0x80
  olen : t.olen.toNat = out.length
  ecnt : t.ecnt.toNat = cnt
  output : Memory.readBytes t.obuf 0 out.length = out
  zeroBeyond : ∀ a, out.length ≤ a → Memory.read t.obuf a = 0
  work : t.work = Work.zero
  frame : SameOperands s t

/-- `t` is the state after a command that failed from `s` with the given error and evaluation count
(60_exceptions.md R228). -/
structure FailsWith (s t : State) (e : CmdError) (cnt : Nat) : Prop where
  status : t.done = true ∧ t.auth = false ∧ t.err = e.code
  statusByte : t.status = 0x80 ||| e.code.setWidth 8
  olen : t.olen = 0
  ecnt : t.ecnt.toNat = cnt
  obuf : ∀ a, Memory.read t.obuf a = 0
  work : t.work = Work.zero
  frame : SameOperands s t

/-- The invariant of the machine. -/
structure Inv (c : Config) (s : State) : Prop where
  /-- Both buffers are in canonical form. -/
  ibufWf : Memory.wf s.ibuf
  obufWf : Memory.wf s.obuf
  /-- IBUF holds `BUF_SIZE` bytes (10_state.md R30). -/
  ibufSize : ∀ cell ∈ s.ibuf, cell.1 < c.bufSize
  /-- OBUF is zero from OLEN on (10_state.md R31), and OLEN is within it. -/
  obufSize : ∀ cell ∈ s.obuf, cell.1 < s.olen.toNat
  olenSize : s.olen.toNat ≤ c.bufSize
  /-- The largest evaluation count (10_state.md R27). -/
  ecntBound : s.ecnt.toNat ≤ 2 ^ 24 + 1
  /-- The working registers are zero between commands (10_state.md R37). -/
  workZero : s.work = Work.zero
  /-- ERR is 0 to 5, and AUTH = 1 implies ERR = 0 (10_state.md R28). -/
  errLegal : s.err.toNat ≤ 5
  authErr : s.auth = true → s.err = 0
  /-- A failed command has no output (60_exceptions.md R229). -/
  failEmpty : s.err ≠ 0 → s.olen = 0
  /-- Only `AuthenticationFailure` leaves a count after a failure (60_exceptions.md R234). -/
  failCount : s.err ≠ 0 → s.err ≠ CmdError.authenticationFailure.code → s.ecnt = 0
  /-- Before the first command there is no result (10_state.md R28, R42). -/
  fresh : s.done = false → s.auth = false ∧ s.err = 0 ∧ s.olen = 0 ∧ s.ecnt = 0

/-- The unmapped addresses, by space and offset (20_memory.md R67). -/
def Unmapped (c : Config) (a : Addr) : Prop :=
  let sp := a.toNat / 2 ^ 30
  let off := a.toNat % 2 ^ 30
  (sp = 0 ∧ (off = 0x03 ∨ (0x2C ≤ off ∧ off ≤ 0x3F) ∨ 0x60 ≤ off)) ∨
    (sp = 1 ∧ c.bufSize ≤ off) ∨ (sp = 2 ∧ c.bufSize ≤ off) ∨ sp = 3

/-- The event is a reset or a host access to a mapped address (20_memory.md R67). -/
def HostEvent.mapped (c : Config) : HostEvent → Bool
  | .hrd a => (locate c a).isSome
  | .hwr a _ => (locate c a).isSome
  | .reset => true

/-- The two states agree on everything a command reads, command by command (30_encoding.md R93); of KEY
only `KEY[0..KEYLEN)` is read (10_state.md R21). -/
def AgreeOnReads (s t : State) : Instr → Prop
  | .clr => True
  | .ksGen => SameKey s t ∧ t.ctrblk = s.ctrblk ∧ t.len = s.len
  | .ksApply => SameKey s t ∧ t.ctrblk = s.ctrblk ∧ t.len = s.len ∧ SameIbuf s t s.len.toNat
  | .gfMul => SameIbuf s t 32
  | .fdDigest => t.len = s.len ∧ SameIbuf s t s.len.toNat
  | .envOpen => SameKey s t ∧ t.len = s.len ∧ SameIbuf s t s.len.toNat
  | .envSeal => SameKey s t ∧ t.nonce = s.nonce ∧ t.len = s.len ∧ SameIbuf s t s.len.toNat

/-- The event writes the code of a command that uses the cipher, and so KEY, to CMD. -/
def HostEvent.usesKey : HostEvent → Bool
  | .hwr a v => a == 0 && [Instr.ksGen, .ksApply, .envOpen, .envSeal].any fun i => v == encodeByte i
  | .hrd _ => false
  | .reset => false

/-- The error that a command reports before it computes anything, by the priority of 60_exceptions.md
R227: first `BadLength`, then `InvalidEnvelope`, then `InvalidKey`; `none` if no check fails. -/
def earlyError (c : Config) (s : State) : Instr → Option CmdError
  | .clr => none
  | .gfMul => none
  | .fdDigest => if c.bufSize < s.len.toNat then some .badLength else none
  | .ksGen =>
    if c.bufSize < s.len.toNat then some .badLength
    else if c.keySizeOk s.keylen.toNat then none else some .invalidKey
  | .ksApply =>
    if c.bufSize < s.len.toNat then some .badLength
    else if c.keySizeOk s.keylen.toNat then none else some .invalidKey
  | .envOpen =>
    if c.bufSize < s.len.toNat then some .badLength
    else if s.len.toNat < 28 then some .invalidEnvelope
    else if c.keySizeOk s.keylen.toNat then none else some .invalidKey
  | .envSeal =>
    if c.bufSize < s.len.toNat + 28 then some .badLength
    else if c.keySizeOk s.keylen.toNat then none else some .invalidKey

end Sys2Proof.Machine
end

