-- ==== Sys2Proof/Certificates/Slice0/Obligations.lean ====
section
/-! DEFINITION. The statements about PT-CORE, from the numbered rules of the spec. -/

open Sys2Proof Sys2Proof.Machine

/-! ### Encoding and the step -/

/-- 30_encoding.md R91: the opcode map with its UNIT and OP columns, and every other code is reserved. -/
def Obligations.CommandCodesDecode : Prop :=
  decode [0x01] = .ok (.clr, []) ∧ decode [0x10] = .ok (.ksGen, []) ∧ decode [0x11] = .ok (.ksApply, []) ∧
    decode [0x20] = .ok (.gfMul, []) ∧ decode [0x21] = .ok (.fdDigest, []) ∧
    decode [0x30] = .ok (.envOpen, []) ∧ decode [0x31] = .ok (.envSeal, []) ∧
    (∀ i, unitField (encodeByte i) = unitOf i ∧ opField (encodeByte i) = opOf i) ∧
    (∀ c, (unitField c).toNat = c.toNat / 16 ∧ (opField c).toNat = c.toNat % 16) ∧
    ∀ c : Byte, c ∉ ([0x01, 0x10, 0x11, 0x20, 0x21, 0x30, 0x31] : List Byte) →
      decode [c] = .error (.reservedCode c)

/-- 30_encoding.md R90, R91: decoding inverts encoding in both directions, with any bytes after. -/
def Obligations.DecodeInvertsEncode : Prop :=
  (∀ i rest, i.wf = true → decode (encode i ++ rest) = .ok (i, rest)) ∧
    ∀ bs i rest, decode bs = .ok (i, rest) → bs = encode i ++ rest

/-- 30_encoding.md R90, 43_system.md R202: when the host's next event writes a byte that decodes to a
command to CMD, the step is that command on the state with the event taken off the script. The script as
the place the event comes from is the model's (notes/assumptions/1.md). -/
def Obligations.StepRunsTheCommandWritten : Prop :=
  ∀ (s : State) (v : Byte) (rest : List HostEvent) (i : Instr), s.script = .hwr 0 v :: rest →
    decode [v] = .ok (i, []) → step s = exec i { s with script := rest }

/-- 60_exceptions.md R226: a byte that is none of the seven codes fails with `BadCommand`, and the results
of the previous command are gone.
The script the events come from is the model's (notes/assumptions/1.md). -/
def Obligations.ReservedCodeFailsWithBadCommand : Prop :=
  ∀ (s : State) (v : Byte) (rest : List HostEvent), s.script = .hwr 0 v :: rest →
    (∀ i, encodeByte i ≠ v) →
    ∃ t, step s = .next t ∧ FailsWith { s with script := rest } t .badCommand 0

/-! ### The host port -/

/-- 43_system.md R201: what a host read of every address returns; it changes nothing. The byte reaches the
host through the model's field `reads` (notes/assumptions/1.md). -/
def Obligations.HostReadReturnsTheAddressedByte : Prop :=
  ∀ (s : State) (rest : List HostEvent),
    let reads (a : Addr) (v : Byte) : Prop :=
      step { s with script := .hrd a :: rest } =
        .next { s with script := rest, reads := v :: s.reads }
    reads 0x00 0x00 ∧
    reads 0x01 ((if s.done then 0x80 else 0) ||| (if s.auth then 0x10 else 0) ||| s.err.setWidth 8) ∧
    reads 0x02 s.keylen ∧
    (∀ i : Fin 4, reads (BitVec.ofNat 32 (0x04 + i)) (BitVec.ofNat 8 (s.len.toNat / 256 ^ (3 - i.val)))) ∧
    (∀ i : Fin 4, reads (BitVec.ofNat 32 (0x08 + i)) (BitVec.ofNat 8 (s.olen.toNat / 256 ^ (3 - i.val)))) ∧
    (∀ i : Fin 4, reads (BitVec.ofNat 32 (0x0C + i)) (BitVec.ofNat 8 (s.ecnt.toNat / 256 ^ (3 - i.val)))) ∧
    (∀ i : Fin 16, reads (BitVec.ofNat 32 (0x10 + i)) s.ctrblk[i]) ∧
    (∀ i : Fin 12, reads (BitVec.ofNat 32 (0x20 + i)) s.nonce[i]) ∧
    (∀ i : Fin 32, reads (BitVec.ofNat 32 (0x40 + i)) 0x00) ∧
    (∀ off < Config.chosen.bufSize, reads (BitVec.ofNat 32 (0x40000000 + off)) (Memory.read s.ibuf off)) ∧
    (∀ off < Config.chosen.bufSize, reads (BitVec.ofNat 32 (0x80000000 + off)) (Memory.read s.obuf off)) ∧
    (∀ a, Unmapped Config.chosen a → step { s with script := .hrd a :: rest } = .refused (.unmappedRead a))

/-- 43_system.md R202: what a host write to every address does, on a state whose IBUF is in canonical form
(`Inv`).
The script the events come from is the model's (notes/assumptions/1.md). -/
def Obligations.HostWriteStoresOnlyTheAddressedByte : Prop :=
  ∀ (s : State) (rest : List HostEvent) (v : Byte), Memory.wf s.ibuf →
    let writes (a : Addr) (t : State) : Prop := step { s with script := .hwr a v :: rest } = .next t
    (∀ i, encodeByte i = v → step { s with script := .hwr 0x00 v :: rest } = exec i { s with script := rest }) ∧
    ((∀ i, encodeByte i ≠ v) →
      ∃ t, writes 0x00 t ∧ FailsWith { s with script := rest } t .badCommand 0) ∧
    writes 0x01 { s with script := rest } ∧
    writes 0x02 { s with script := rest, keylen := v } ∧
    (∀ i : Fin 4, writes (BitVec.ofNat 32 (0x04 + i))
      { s with
        script := rest
        len := (s.len &&& ~~~(0xFF#32 <<< (8 * (3 - i.val)))) ||| (v.setWidth 32 <<< (8 * (3 - i.val))) }) ∧
    (∀ i : Fin 8, writes (BitVec.ofNat 32 (0x08 + i)) { s with script := rest }) ∧
    (∀ i : Fin 16, writes (BitVec.ofNat 32 (0x10 + i)) { s with script := rest, ctrblk := s.ctrblk.set i v }) ∧
    (∀ i : Fin 12, writes (BitVec.ofNat 32 (0x20 + i)) { s with script := rest, nonce := s.nonce.set i v }) ∧
    (∀ i : Fin 32, writes (BitVec.ofNat 32 (0x40 + i)) { s with script := rest, key := s.key.set i v }) ∧
    (∀ off < Config.chosen.bufSize, ∃ m, writes (BitVec.ofNat 32 (0x40000000 + off)) { s with script := rest, ibuf := m } ∧
      ∀ b, Memory.read m b = if b = off then v else Memory.read s.ibuf b) ∧
    (∀ off < Config.chosen.bufSize, writes (BitVec.ofNat 32 (0x80000000 + off)) { s with script := rest }) ∧
    (∀ a, Unmapped Config.chosen a → step { s with script := .hwr a v :: rest } = .refused (.unmappedWrite a))

/-- 20_memory.md R67: an access to an unmapped address gets no step, so it writes no error code.
The script the events come from is the model's (notes/assumptions/1.md). -/
def Obligations.UnmappedAccessIsRefused : Prop :=
  ∀ (s : State) (rest : List HostEvent) (a : Addr) (v : Byte), Unmapped Config.chosen a →
    step { s with script := .hrd a :: rest } = .refused (.unmappedRead a) ∧
      step { s with script := .hwr a v :: rest } = .refused (.unmappedWrite a)

/-- 43_system.md R202, 70_reset_and_hazards.md R259: a host write to any mapped address but CMD leaves the
results of the last command as they are.
The script the events come from is the model's (notes/assumptions/1.md). -/
def Obligations.OperandWritesKeepResults : Prop :=
  ∀ (s : State) (a : Addr) (v : Byte) (rest : List HostEvent), s.script = .hwr a v :: rest → a ≠ 0 →
    ¬ Unmapped Config.chosen a →
    ∃ t, step s = .next t ∧ SameResults s t ∧ t.work = s.work ∧ t.script = rest ∧ t.reads = s.reads

/-- 43_system.md R202, 20_memory.md R62: the four bytes of LEN written in any order give the same LEN,
byte 0 the most significant, and change nothing else.
The script the events come from is the model's (notes/assumptions/1.md). -/
def Obligations.LenBytesInAnyOrder : Prop :=
  ∀ (s : State) (b : Vector Byte 4) (rest l : List HostEvent),
    l.Perm [.hwr 0x04 b[0], .hwr 0x05 b[1], .hwr 0x06 b[2], .hwr 0x07 b[3]] →
    core.run 4 { s with script := l ++ rest } =
      .next { s with script := rest, len := BitVec.ofNat 32 (intOf b.toList) }

/-- 30_encoding.md R100: the writes of a `key` line load the key bytes and KEYLEN, leave the key bytes
beyond as they were, and change nothing else.
The script the events come from is the model's (notes/assumptions/1.md). -/
def Obligations.KeyLineLoadsTheKey : Prop :=
  ∀ (s : State) (b : List Byte) (rest : List HostEvent), b.length ≤ 32 →
    ∃ k : Vector Byte 32,
      core.run (b.length + 1) { s with script := ScriptLine.expand (.key b) ++ rest } =
        .next { s with script := rest, key := k, keylen := BitVec.ofNat 8 b.length } ∧
      ∀ (i : Nat) (h : i < 32), k[i] = if hb : i < b.length then b[i] else s.key[i]

/-- 30_encoding.md R100: the writes of an `in` line make `IBUF[0..LEN)` the given bytes and leave the rest
of IBUF and every other register.
The script the events come from is the model's (notes/assumptions/1.md). -/
def Obligations.InLineLoadsTheInput : Prop :=
  ∀ (s : State) (b : List Byte) (rest : List HostEvent), Memory.wf s.ibuf →
    b.length ≤ Config.chosen.bufSize →
    ∃ m, core.run (b.length + 4) { s with script := ScriptLine.expand (.input b) ++ rest } =
        .next { s with script := rest, ibuf := m, len := BitVec.ofNat 32 b.length } ∧
      ∀ a, Memory.read m a = if h : a < b.length then b[a] else Memory.read s.ibuf a

/-- 30_encoding.md R99, R100: the lines that load one register each: what `ctrblk`, `nonce`, `len` and
`keylen` leave, and that a `cmd` line is the command.
The script the events come from is the model's (notes/assumptions/1.md). -/
def Obligations.RegisterLinesLoadTheirRegister : Prop :=
  ∀ (s : State) (rest : List HostEvent),
    (∀ b : Vector Byte 16, core.run 16 { s with script := ScriptLine.expand (.ctrblk b.toList) ++ rest } =
      .next { s with script := rest, ctrblk := b }) ∧
    (∀ b : Vector Byte 12, core.run 12 { s with script := ScriptLine.expand (.nonce b.toList) ++ rest } =
      .next { s with script := rest, nonce := b }) ∧
    (∀ n < 2 ^ 32, core.run 4 { s with script := ScriptLine.expand (.len n) ++ rest } =
      .next { s with script := rest, len := BitVec.ofNat 32 n }) ∧
    (∀ n < 2 ^ 8, core.run 1 { s with script := ScriptLine.expand (.keylen n) ++ rest } =
      .next { s with script := rest, keylen := BitVec.ofNat 8 n }) ∧
    ∀ i, core.run 1 { s with script := ScriptLine.expand (.cmd i) ++ rest } = exec i { s with script := rest }

/-- 30_encoding.md R100: the lines that read the results: the host gets STATUS, OLEN and ECNT most
significant byte first, and `OBUF[0..n)` in order; `reads` lists the newest byte first.
The script the events come from is the model's (notes/assumptions/1.md). -/
def Obligations.ReadLinesReturnTheResults : Prop :=
  ∀ (s : State) (rest : List HostEvent),
    (core.run 1 { s with script := ScriptLine.expand .status ++ rest } =
      .next { s with script := rest, reads := s.status :: s.reads }) ∧
    (core.run 4 { s with script := ScriptLine.expand .olen ++ rest } =
      .next { s with script := rest, reads := (be32 s.olen).toList.reverse ++ s.reads }) ∧
    (core.run 4 { s with script := ScriptLine.expand .ecnt ++ rest } =
      .next { s with script := rest, reads := (be32 s.ecnt).toList.reverse ++ s.reads }) ∧
    ∀ n ≤ Config.chosen.bufSize, core.run n { s with script := ScriptLine.expand (.obuf n) ++ rest } =
      .next { s with script := rest, reads := (Memory.readBytes s.obuf 0 n).reverse ++ s.reads }

/-! ### Reset -/

/-- 10_state.md R42: after reset every byte and bit of the record is zero. -/
def Obligations.ResetStateIsAllZero : Prop :=
  let s := State.reset
  (∀ i : Fin 32, s.key[i] = 0) ∧ s.keylen = 0 ∧ (∀ i : Fin 16, s.ctrblk[i] = 0) ∧
    (∀ i : Fin 12, s.nonce[i] = 0) ∧ s.len = 0 ∧ s.olen = 0 ∧ s.ecnt = 0 ∧ s.status = 0x00 ∧
    s.done = false ∧ s.auth = false ∧ s.err = 0 ∧ (∀ a, Memory.read s.ibuf a = 0) ∧
    (∀ a, Memory.read s.obuf a = 0) ∧ s.work.ctr = 0 ∧ s.work.s = 0 ∧ s.work.acc = 0 ∧ s.work.v = 0 ∧
    s.work.z = 0

/-- 70_reset_and_hazards.md R250: a reset event puts every register, both buffers and the working
registers into the reset state.
That the script and the list of read bytes stay is the model's choice (notes/assumptions/2.md). -/
def Obligations.ResetEventRestoresTheResetState : Prop :=
  ∀ (s : State) (rest : List HostEvent), s.script = .reset :: rest →
    ∃ t, step s = .next t ∧ t = { State.reset with script := t.script, reads := t.reads }

/-! ### The commands -/

/-- 43_system.md R203: after `CLR` the state is the reset state but for DONE, and `CLR` twice is the same
as once. -/
def Obligations.ClrZeroesEverything : Prop :=
  decode [0x01] = .ok (.clr, []) ∧ ∀ s : State, ∃ t, exec .clr s = .next t ∧
    t = { State.reset with done := true, script := s.script, reads := s.reads } ∧ t.status = 0x80 ∧
    exec .clr t = .next t

/-- 40_keystream.md R120: `KS.GEN`, its output and both its errors. -/
def Obligations.KsGenOutcome : Prop :=
  decode [0x10] = .ok (.ksGen, []) ∧ ∀ s : State,
    (s.len.toNat ≤ Config.chosen.bufSize → Config.chosen.keySizeOk s.keylen.toNat = true →
      ∃ t, exec .ksGen s = .next t ∧
        Succeeds s t
          (keystreamApply Config.chosen (s.key.toList.take s.keylen.toNat) (Block.ofBytes s.ctrblk.toList)
            (List.replicate s.len.toNat 0))
          ((s.len.toNat + 15) / 16) false) ∧
    (Config.chosen.bufSize < s.len.toNat → ∃ t, exec .ksGen s = .next t ∧ FailsWith s t .badLength 0) ∧
    (s.len.toNat ≤ Config.chosen.bufSize → Config.chosen.keySizeOk s.keylen.toNat = false →
      ∃ t, exec .ksGen s = .next t ∧ FailsWith s t .invalidKey 0)

/-- 40_keystream.md R121: `KS.APPLY`, its output and both its errors. -/
def Obligations.KsApplyOutcome : Prop :=
  decode [0x11] = .ok (.ksApply, []) ∧ ∀ s : State,
    (s.len.toNat ≤ Config.chosen.bufSize → Config.chosen.keySizeOk s.keylen.toNat = true →
      ∃ t, exec .ksApply s = .next t ∧
        Succeeds s t
          (keystreamApply Config.chosen (s.key.toList.take s.keylen.toNat) (Block.ofBytes s.ctrblk.toList)
            (Memory.readBytes s.ibuf 0 s.len.toNat))
          ((s.len.toNat + 15) / 16) false) ∧
    (Config.chosen.bufSize < s.len.toNat → ∃ t, exec .ksApply s = .next t ∧ FailsWith s t .badLength 0) ∧
    (s.len.toNat ≤ Config.chosen.bufSize → Config.chosen.keySizeOk s.keylen.toNat = false →
      ∃ t, exec .ksApply s = .next t ∧ FailsWith s t .invalidKey 0)

/-- 41_field_digest.md R151: `GF.MUL` multiplies `IBUF[0..16)` by `IBUF[16..32)` in every state. -/
def Obligations.GfMulOutcome : Prop :=
  decode [0x20] = .ok (.gfMul, []) ∧ ∀ s : State, ∃ t, exec .gfMul s = .next t ∧
    Succeeds s t
      (Block.bytes (gfMul (Block.ofBytes (Memory.readBytes s.ibuf 0 16))
        (Block.ofBytes (Memory.readBytes s.ibuf 16 16)))) 0 false

/-- 41_field_digest.md R152: `FD.DIGEST`, its output and its error; no key is needed. -/
def Obligations.FdDigestOutcome : Prop :=
  decode [0x21] = .ok (.fdDigest, []) ∧ ∀ s : State,
    (s.len.toNat ≤ Config.chosen.bufSize →
      ∃ t, exec .fdDigest s = .next t ∧
        Succeeds s t
          (Block.bytes (digest Config.chosen Config.chosen.fixedSubkey
            (Memory.readBytes s.ibuf 0 s.len.toNat))) 0 false) ∧
    (Config.chosen.bufSize < s.len.toNat → ∃ t, exec .fdDigest s = .next t ∧ FailsWith s t .badLength 0)

/-- 42_envelope.md R179: `ENV.OPEN`, its plaintext and its four errors in priority order. -/
def Obligations.EnvOpenOutcome : Prop :=
  decode [0x30] = .ok (.envOpen, []) ∧ ∀ s : State,
    let n := s.len.toNat
    let result := openEnvelope Config.chosen (s.key.toList.take s.keylen.toNat) (Memory.readBytes s.ibuf 0 n)
    (∀ pt, 28 ≤ n → n ≤ Config.chosen.bufSize → Config.chosen.keySizeOk s.keylen.toNat = true →
      result = some pt →
      ∃ t, exec .envOpen s = .next t ∧ Succeeds s t pt ((n - 28 + 15) / 16 + 1) true ∧
        t.olen.toNat = n - 28) ∧
    (28 ≤ n → n ≤ Config.chosen.bufSize → Config.chosen.keySizeOk s.keylen.toNat = true →
      result = none →
      ∃ t, exec .envOpen s = .next t ∧ FailsWith s t .authenticationFailure ((n - 28 + 15) / 16 + 1)) ∧
    (Config.chosen.bufSize < n → ∃ t, exec .envOpen s = .next t ∧ FailsWith s t .badLength 0) ∧
    (n < 28 → ∃ t, exec .envOpen s = .next t ∧ FailsWith s t .invalidEnvelope 0) ∧
    (28 ≤ n → n ≤ Config.chosen.bufSize → Config.chosen.keySizeOk s.keylen.toNat = false →
      ∃ t, exec .envOpen s = .next t ∧ FailsWith s t .invalidKey 0)

/-- 42_envelope.md R180: `ENV.SEAL`, its envelope and both its errors. -/
def Obligations.EnvSealOutcome : Prop :=
  decode [0x31] = .ok (.envSeal, []) ∧ ∀ s : State,
    (s.len.toNat ≤ Config.chosen.bufSize - 28 → Config.chosen.keySizeOk s.keylen.toNat = true →
      ∃ t, exec .envSeal s = .next t ∧
        Succeeds s t
          (sealEnvelope Config.chosen (s.key.toList.take s.keylen.toNat) s.nonce.toList
            (Memory.readBytes s.ibuf 0 s.len.toNat))
          ((s.len.toNat + 15) / 16 + 1) false ∧
        t.olen.toNat = s.len.toNat + 28) ∧
    (Config.chosen.bufSize - 28 < s.len.toNat →
      ∃ t, exec .envSeal s = .next t ∧ FailsWith s t .badLength 0) ∧
    (s.len.toNat ≤ Config.chosen.bufSize - 28 → Config.chosen.keySizeOk s.keylen.toNat = false →
      ∃ t, exec .envSeal s = .next t ∧ FailsWith s t .invalidKey 0)

/-- 60_exceptions.md R227: the error reported is the first in the priority order. A reserved byte is
`BadCommand` in every state; a command none of whose checks fails succeeds, or is an `ENV.OPEN` that ends
in `AuthenticationFailure`. -/
def Obligations.FirstErrorInPriorityOrder : Prop :=
  (∀ (s : State) (v : Byte), (∀ i, encodeByte i ≠ v) →
      ∃ t, commandWrite v s = .next t ∧ FailsWith s t .badCommand 0) ∧
    (∀ (i : Instr) (s : State) (e : CmdError), earlyError Config.chosen s i = some e →
      ∃ t, exec i s = .next t ∧ FailsWith s t e 0) ∧
    ∀ (i : Instr) (s : State), earlyError Config.chosen s i = none →
      ∃ t, exec i s = .next t ∧
        (t.err = 0 ∨ (i = .envOpen ∧ FailsWith s t .authenticationFailure ((s.len.toNat - 28 + 15) / 16 + 1)))

/-- 30_encoding.md R93, R97, 60_exceptions.md R228: every command but `CLR` ends in a next state with every
operand register, every byte of IBUF and the host's side unchanged; after any command DONE is set, the
working registers are zero, and a failed one has no output. -/
def Obligations.OnlyClrChangesOperands : Prop :=
  ∀ (i : Instr) (s : State), ∃ t, exec i s = .next t ∧ (i ≠ .clr → SameOperands s t) ∧
    t.done = true ∧ t.work = Work.zero ∧ t.script = s.script ∧ t.reads = s.reads ∧
    (∀ a, t.olen.toNat ≤ a → Memory.read t.obuf a = 0) ∧ (t.err ≠ 0 → t.olen = 0)

/-- 30_encoding.md R93: nothing but what the operand map lists can affect the results of a command. -/
def Obligations.ResultsDependOnListedReadsOnly : Prop :=
  ∀ (i : Instr) (s s' : State), AgreeOnReads s s' i →
    ∃ t t', exec i s = .next t ∧ exec i s' = .next t' ∧ SameResults t t'

/-- 42_envelope.md R182, 60_exceptions.md R231, 43_system.md R203: running a command again gives the same
state. -/
def Obligations.RepeatedCommandGivesTheSameState : Prop :=
  ∀ (i : Instr) (s : State), ∃ t, exec i s = .next t ∧ exec i t = .next t

/-- 42_envelope.md R177: two failed opens of envelopes of one length leave the same results, whatever the
envelopes, keys and plaintexts were: nothing of the plaintext reaches the host. -/
def Obligations.FailedOpenRevealsNothing : Prop :=
  ∀ s s' t t' : State, s'.len = s.len → exec .envOpen s = .next t → exec .envOpen s' = .next t' →
    t.err = CmdError.authenticationFailure.code → t'.err = CmdError.authenticationFailure.code →
    SameResults t t' ∧ ∀ a, Memory.read t.obuf a = 0

/-! ### The functions of the keystream generator -/

/-- 40_keystream.md R111: bytes 12 to 15 count as one big-endian 32-bit number, byte by byte from the
right, and bytes 0 to 11 never change. -/
def Obligations.IncrementCountsInLastFourBytes : Prop :=
  ∀ c : Block,
    let b := Block.byte c
    let d := Block.byte (inc32 c)
    (∀ i < 12, d i = b i) ∧
      intOf (slice (Block.bytes (inc32 c)) 12 16) = (intOf (slice (Block.bytes c) 12 16) + 1) % 2 ^ 32 ∧
      d 15 = b 15 + 1 ∧ d 14 = (if d 15 = 0 then b 14 + 1 else b 14) ∧
      d 13 = (if d 15 = 0 ∧ d 14 = 0 then b 13 + 1 else b 13) ∧
      d 12 = (if d 15 = 0 ∧ d 14 = 0 ∧ d 13 = 0 then b 12 + 1 else b 12)

/-- 40_keystream.md R112 (90_conflicts.md C1): the wrap drops the carry. -/
def Obligations.IncrementWrapKeepsNonce : Prop :=
  ∀ n : List Byte, n.length = 12 →
    Block.bytes (inc32 (Block.ofBytes (n ++ [0xff, 0xff, 0xff, 0xff]))) = n ++ [0, 0, 0, 0]

/-- 40_keystream.md R113: output byte `i` is data byte `i` xor byte `i mod 16` of the encryption of the
counter block incremented `i div 16` times; the unit evaluates `E` `ceil(n/16)` times, whatever the working
registers held before; with no data it touches none of them, and else it leaves in CTR the counter of the
last block, not incremented once more, and its encryption in S. That CTR is not incremented once more is
the model's choice: 90_conflicts.md C6 lets a model do either (DESIGN CHOICE, notes/assumptions/4.md). -/
def Obligations.KeystreamByteFormula : Prop :=
  ∀ (c : Config) (key : List Byte) (cb : Block) (data : List Byte) (w : Work),
    let r := keystreamUnit c key cb data w
    let last := inc32^[(data.length - 1) / 16] cb
    r.out.length = data.length ∧ r.cnt = (data.length + 15) / 16 ∧ (data = [] → r.work = w) ∧
      (data ≠ [] → r.work = { w with ctr := last, s := c.cipher key last }) ∧
      ∀ (i : Nat) (h : i < data.length),
        r.out[i]? = some (data[i] ^^^ Block.byte (c.cipher key (inc32^[i / 16] cb)) (i % 16))

/-- 40_keystream.md R117: applying a keystream twice gives the data back. -/
def Obligations.KeystreamTwiceIsIdentity : Prop :=
  ∀ (c : Config) (key : List Byte) (cb : Block) (data : List Byte),
    keystreamApply c key cb (keystreamApply c key cb data) = data

/-- 70_reset_and_hazards.md R257: from block `k` on, a keystream is the keystream of the counter block
incremented `k` times. -/
def Obligations.KeystreamsOverlapByCounter : Prop :=
  ∀ (c : Config) (key : List Byte) (cb : Block) (k n : Nat),
    (keystreamApply c key cb (List.replicate (16 * k + n) 0)).drop (16 * k) =
      keystreamApply c key (inc32^[k] cb) (List.replicate n 0)

/-! ### The functions of the field unit -/

/-- 41_field_digest.md R141: the shift step as an integer and byte by byte. -/
def Obligations.ShiftStepByBytes : Prop :=
  ∀ v : Block,
    (shiftStep v).toNat = (v.toNat / 2) ^^^ (v.toNat % 2 * 0xE1 * 2 ^ 120) ∧
      Block.byte (shiftStep v) 0 =
        (Block.byte v 0 >>> 1) ^^^ (if Block.byte v 15 &&& 1 = 1 then 0xE1 else 0) ∧
      ∀ i, 1 ≤ i → i < 16 →
        Block.byte (shiftStep v) i = (Block.byte v i >>> 1) ||| ((Block.byte v (i - 1) &&& 1) <<< 7)

/-- 41_field_digest.md R142: the product is the xor of `ShiftStep^k(b)` over the set bits `k` of `a`,
counted from the most significant bit of byte 0; the unit takes 128 steps, needs nothing of what the
working registers held, and leaves CTR, S and ACC alone. -/
def Obligations.GfMulIsXorOfShiftedCopies : Prop :=
  ∀ a b : Block,
    gfMul a b = (List.range 128).foldl (fun z k => if a.getMsbD k then z ^^^ shiftStep^[k] b else z) 0 ∧
      ∀ w : Work, mulUnit a b w = { w with z := gfMul a b, v := shiftStep^[128] b }

/-- 41_field_digest.md R150 (c): the multiply is linear in each operand. -/
def Obligations.GfMulIsLinear : Prop :=
  ∀ a b c : Block, gfMul a (b ^^^ c) = gfMul a b ^^^ gfMul a c ∧
    gfMul (b ^^^ c) a = gfMul b a ^^^ gfMul c a

/-- 41_field_digest.md R150 (a), (b): zero absorbs, and `80 00..00` is the one on both sides. -/
def Obligations.GfMulZeroAndOne : Prop :=
  ∀ a : Block, gfMul 0 a = 0 ∧ gfMul a 0 = 0 ∧ gfMul a (1#128 <<< 127) = a ∧ gfMul (1#128 <<< 127) a = a

/-- 41_field_digest.md R144: the data blocks and the zero padding of the last one. -/
def Obligations.BlocksPadTheLastOne : Prop :=
  ∀ data : List Byte, (blocks data).length = (data.length + 15) / 16 ∧
    ∀ (k : Nat) (h : k < (blocks data).length) (i : Nat), i < 16 →
      Block.byte (blocks data)[k] i = if hi : 16 * k + i < data.length then data[16 * k + i] else 0

/-- 41_field_digest.md R145: twelve zero bytes, then `8 × n` as a big-endian 32-bit number. -/
def Obligations.LenBlockEncodesTheBitLength : Prop :=
  ∀ (c : Config) (n : Nat), n < 2 ^ 29 →
    (∀ i < 12, Block.byte (lenBlock c n) i = 0) ∧ intOf (slice (Block.bytes (lenBlock c n)) 12 16) = 8 * n

/-- 41_field_digest.md R146: the digest is the fold of xor and multiply over the data blocks and then the
length block, from zero, whatever the working registers held before. -/
def Obligations.DigestFoldsBlocksThenLength : Prop :=
  ∀ (c : Config) (h : Block) (data : List Byte) (w : Work),
    (digestUnit c h data w).acc =
        (blocks data ++ [lenBlock c data.length]).foldl (fun acc b => gfMul (acc ^^^ b) h) 0 ∧
      (digestUnit c h data w).ctr = w.ctr ∧ (digestUnit c h data w).s = w.s

/-- 41_field_digest.md R150 (d), (e), (f): the digest of nothing, and the digests under the subkeys one
and zero. -/
def Obligations.DigestDegenerateCases : Prop :=
  ∀ c : Config, (∀ h, digest c h [] = 0) ∧ (∀ data, digest c 0 data = 0) ∧
    ∀ data, digest c (1#128 <<< 127) data =
      (blocks data ++ [lenBlock c data.length]).foldl (fun acc b => acc ^^^ b) 0

/-! ### The functions of the envelope controller -/

/-- 42_envelope.md R171: the layout of the counter block. -/
def Obligations.CounterBlockLayout : Prop :=
  ∀ (nonce : List Byte) (d : Byte), nonce.length = 12 →
    Block.bytes (counterBlock nonce d) = nonce ++ [0x00, 0x00, 0x00, d] ∧
      intOf (slice (Block.bytes (counterBlock nonce d)) 12 16) = d.toNat

/-- 42_envelope.md R178: the counter values of one envelope: block `k` of the payload is encrypted from
counter `2 + k`, none is the tag's counter 1, and none comes twice. -/
def Obligations.EnvelopeCountersNeverCollide : Prop :=
  ∀ (nonce : List Byte) (k : Nat), nonce.length = 12 → k ≤ 2 ^ 24 →
    Block.bytes (inc32^[k] (counterBlock nonce 2)) = nonce ++ (be32 (BitVec.ofNat 32 (2 + k))).toList ∧
      inc32^[k] (counterBlock nonce 2) ≠ counterBlock nonce 1 ∧
      ∀ j < k, inc32^[j] (counterBlock nonce 2) ≠ inc32^[k] (counterBlock nonce 2)

/-- 42_envelope.md R175: the parts of a sealed envelope. -/
def Obligations.SealedEnvelopeLayout : Prop :=
  ∀ (c : Config) (key nonce pt : List Byte), nonce.length = 12 →
    let ct := keystreamApply c key (Block.ofBytes (nonce ++ [0, 0, 0, 2])) pt
    let tag := keystreamApply c key (Block.ofBytes (nonce ++ [0, 0, 0, 1]))
      (Block.bytes (digest c c.fixedSubkey ct))
    sealEnvelope c key nonce pt = nonce ++ ct ++ tag ∧ ct.length = pt.length ∧ tag.length = 16 ∧
      split (sealEnvelope c key nonce pt) = ⟨nonce, ct, tag⟩

/-- 42_envelope.md R174: what `Open` returns. -/
def Obligations.OpenComparesTheExpectedTag : Prop :=
  ∀ (c : Config) (key env : List Byte), 28 ≤ env.length →
    let nonce := env.take 12
    let ct := (env.drop 12).take (env.length - 28)
    let tag := env.drop (env.length - 16)
    let expected := keystreamApply c key (Block.ofBytes (nonce ++ [0, 0, 0, 1]))
      (Block.bytes (digest c c.fixedSubkey ct))
    openEnvelope c key env =
      if expected = tag then some (keystreamApply c key (Block.ofBytes (nonce ++ [0, 0, 0, 2])) ct) else none

/-- 42_envelope.md R181: opening a sealed envelope gives the plaintext back, for every cipher and every
subkey. -/
def Obligations.OpenInvertsSeal : Prop :=
  ∀ (c : Config) (key nonce pt : List Byte), nonce.length = 12 →
    openEnvelope c key (sealEnvelope c key nonce pt) = some pt

/-- 42_envelope.md R183 (a): an envelope that opens fails with any other tag. -/
def Obligations.TagChangeAlwaysDetected : Prop :=
  ∀ s s' : State, ∀ t : State, exec .envOpen s = .next t → t.auth = true →
    SameKey s s' → s'.len = s.len →
    (∀ a < s.len.toNat - 16, Memory.read s'.ibuf a = Memory.read s.ibuf a) →
    (∃ a, s.len.toNat - 16 ≤ a ∧ a < s.len.toNat ∧ Memory.read s'.ibuf a ≠ Memory.read s.ibuf a) →
    ∃ t', exec .envOpen s' = .next t' ∧
      FailsWith s' t' .authenticationFailure ((s.len.toNat - 28 + 15) / 16 + 1)

/-- 42_envelope.md R183 (b): if multiplying by the subkey sends only zero to zero (true of every non-zero
subkey by the field property the spec marks as general knowledge, G4), an envelope that opens fails when
its ciphertext is changed within one 16-byte block. -/
def Obligations.CiphertextChangeDetected : Prop :=
  ∀ (c : Config) (key env env' : List Byte) (k : Nat),
    (∀ x, gfMul x c.fixedSubkey = 0 → x = 0) → 28 ≤ env.length → env'.length = env.length →
    (∀ i, i < 12 ∨ env.length - 16 ≤ i → env'[i]? = env[i]?) →
    (∀ i, (i - 12) / 16 ≠ k → env'[i]? = env[i]?) → env' ≠ env →
    (openEnvelope c key env).isSome = true → openEnvelope c key env' = none

/-! ### Whole-machine rules -/

/-- 10_state.md R28, R30, R31, R37, 60_exceptions.md R229: every step keeps the invariant. -/
def Obligations.InvariantKeptByEveryStep : Prop :=
  ∀ s t : State, Inv Config.chosen s → step s = .next t → Inv Config.chosen t

/-- 10_state.md R42: the reset state meets the invariant. -/
def Obligations.InvariantAtReset : Prop := Inv Config.chosen State.reset

/-- 10_state.md R28: in every state that meets the invariant, STATUS reads as one of the bytes the spec
gives it. -/
def Obligations.StatusReadsLegalValuesOnly : Prop :=
  ∀ s : State, Inv Config.chosen s →
    s.status ∈ ([0x00, 0x80, 0x90, 0x81, 0x82, 0x83, 0x84, 0x85] : List Byte)

/-- 10_state.md R28, 92_eei_decisions.md D16: only a reset clears DONE, and only a write of the code of
`ENV.OPEN` sets AUTH.
The script the events come from is the model's (notes/assumptions/1.md). -/
def Obligations.DoneAndAuthChangeOnlyByRule : Prop :=
  ∀ s t : State, step s = .next t →
    (s.done = true → t.done = false → s.script.head? = some .reset) ∧
      (s.auth = false → t.auth = true → s.script.head? = some (.hwr 0 0x30))

/-- 10_state.md R21, R41, 60_exceptions.md R237: the host cannot read KEY. Two machines that differ in KEY
alone, and run the same events with no write of a cipher command among them, still differ in KEY alone:
the host reads the same bytes from both, and both stop or neither does.
The script the events come from is the model's (notes/assumptions/1.md). -/
def Obligations.HostNeverReadsTheKey : Prop :=
  ∀ (s : State) (k : Vector Byte 32) (n : Nat), (∀ e ∈ s.script, e.usesKey = false) →
    (∀ t, core.run n s = .next t → ∃ k', core.run n { s with key := k } = .next { t with key := k' }) ∧
      ∀ r, core.run n s = .refused r → core.run n { s with key := k } = .refused r

/-- 42_envelope.md R181 on the machine: what `ENV.SEAL` leaves in OBUF, copied to IBUF with LEN set to
OLEN, `ENV.OPEN` under the same key opens to the sealed plaintext. -/
def Obligations.SealThenOpenRestoresPlaintext : Prop :=
  ∀ s : State, s.len.toNat + 28 ≤ Config.chosen.bufSize → Config.chosen.keySizeOk s.keylen.toNat = true →
    ∃ t, exec .envSeal s = .next t ∧
      ∀ u : State, SameKey s u → u.len = t.olen →
        (∀ a < t.olen.toNat, Memory.read u.ibuf a = Memory.read t.obuf a) →
        ∃ v, exec .envOpen u = .next v ∧
          Succeeds u v (Memory.readBytes s.ibuf 0 s.len.toNat) ((s.len.toNat + 15) / 16 + 1) true

/-- 70_reset_and_hazards.md R262: a script of mapped accesses, resets and any command bytes runs to its end
with one step per event, whatever the state.
The script the events come from is the model's (notes/assumptions/1.md). -/
def Obligations.MappedScriptRunsToItsEnd : Prop :=
  ∀ (s : State) (n : Nat), (∀ e ∈ s.script, e.mapped Config.chosen = true) →
    ∃ t, core.run n s = .next t ∧ t.script = s.script.drop n
end

