-- ==== Sys2Proof/Laws/Bytes.lean ====
section
/-! SUPPORT. Laws of the byte-order operations: the bytes of a block and of a 32-bit number, and bytewise
exclusive or. -/

namespace Sys2Proof

/-- The number of four bytes, most significant first. -/
theorem toNat_word32 (b : Vector Byte 4) :
    (word32 b).toNat = 2 ^ 24 * b[0].toNat + 2 ^ 16 * b[1].toNat + 2 ^ 8 * b[2].toNat + b[3].toNat := by
  obtain ⟨⟨l⟩, h⟩ := b
  simp only [List.size_toArray] at h
  match l, h with
  | [b0, b1, b2, b3], _ =>
    simp [word32, intOf]
    omega

/-- Byte `i` of a 32-bit number, byte 0 the most significant. -/
theorem toNat_be32 (x : Word32) (i : Nat) (hi : i < 4) :
    ((be32 x)[i]).toNat = x.toNat / 2 ^ (8 * (3 - i)) % 256 := by
  obtain rfl | rfl | rfl | rfl : i = 0 ∨ i = 1 ∨ i = 2 ∨ i = 3 := by omega
  all_goals simp [be32, BitVec.extractLsb'_toNat, Nat.shiftRight_eq_div_pow]

@[simp] theorem word32_be32 (x : Word32) : word32 (be32 x) = x := by
  apply BitVec.eq_of_toNat_eq
  rw [toNat_word32, toNat_be32, toNat_be32, toNat_be32, toNat_be32]
  omega

@[simp] theorem be32_word32 (b : Vector Byte 4) : be32 (word32 b) = b := by
  apply Vector.ext
  intro i hi
  apply BitVec.eq_of_toNat_eq
  rw [toNat_be32 _ _ hi, toNat_word32]
  obtain rfl | rfl | rfl | rfl : i = 0 ∨ i = 1 ∨ i = 2 ∨ i = 3 := by omega
  all_goals simp; omega

@[simp] theorem length_xorBytes (a b : List Byte) : (xorBytes a b).length = min a.length b.length := by
  simp [xorBytes]

theorem getElem_xorBytes (a b : List Byte) (i : Nat) (h : i < (xorBytes a b).length) :
    (xorBytes a b)[i] = a[i]'(by simp at h; omega) ^^^ b[i]'(by simp at h; omega) := by
  simp [xorBytes]

@[simp] theorem xorBytes_nil_left (b : List Byte) : xorBytes [] b = [] := by simp [xorBytes]

namespace Block

@[simp] theorem length_bytes (b : Block) : (bytes b).length = 16 := by simp [bytes]

@[simp] theorem getElem_bytes (b : Block) (i : Nat) (h : i < (bytes b).length) :
    (bytes b)[i] = byte b i := by simp [bytes]

/-- Bit `j` of byte `i` is bit `8 × (15 - i) + j` of the 128-bit integer (00_scope.md R15). -/
theorem getLsbD_byte (b : Block) (i j : Nat) (hj : j < 8) :
    (byte b i).getLsbD j = b.getLsbD (8 * (15 - i) + j) := by
  simp [byte, hj]

/-- Two blocks with the same 16 bytes are equal. -/
theorem ext_byte {a b : Block} (h : ∀ i < 16, byte a i = byte b i) : a = b := by
  apply BitVec.eq_of_getLsbD_eq
  intro k hk
  have := congrArg (·.getLsbD (k % 8)) (h (15 - k / 8) (by omega))
  simp only [getLsbD_byte _ _ _ (Nat.mod_lt k (by decide : 0 < 8))] at this
  rwa [show 8 * (15 - (15 - k / 8)) + k % 8 = k by omega] at this

theorem foldl_shift_getLsbD (g : Nat → Byte) (n j : Nat) (hj : j < 128) :
    ((List.range n).foldl (fun (acc : Block) i => (acc <<< 8) ||| (g i).setWidth 128) 0).getLsbD j =
      if j < 8 * n then (g (n - 1 - j / 8)).getLsbD (j % 8) else false := by
  induction n generalizing j with
  | zero => simp
  | succ n ih =>
    rw [List.range_succ, List.foldl_append]
    simp only [List.foldl_cons, List.foldl_nil, BitVec.getLsbD_or, BitVec.getLsbD_shiftLeft,
      BitVec.getLsbD_setWidth, hj, decide_true, Bool.true_and]
    by_cases h8 : j < 8
    · have h1 : n + 1 - 1 - j / 8 = n := by omega
      have h2 : j % 8 = j := by omega
      have h3 : j < 8 * (n + 1) := by omega
      rw [if_pos h3, h1, h2]
      simp [h8]
    · rw [ih (j - 8) (by omega)]
      have h1 : n - 1 - (j - 8) / 8 = n + 1 - 1 - j / 8 := by omega
      have h2 : (j - 8) % 8 = j % 8 := by omega
      have h3 : (g n).getLsbD j = false := BitVec.getLsbD_of_ge _ _ (by omega)
      by_cases h4 : j < 8 * (n + 1)
      · have h5 : j - 8 < 8 * n := by omega
        simp [h8, h1, h2, h3, h4, h5]
      · have h5 : ¬ j - 8 < 8 * n := by omega
        simp [h8, h3, h4, h5]

/-- Byte `i` of the block of a sequence is the sequence's byte `i`, zero where it has none. -/
@[simp] theorem byte_ofBytes (l : List Byte) (i : Nat) (hi : i < 16) :
    byte (ofBytes l) i = l.getD i 0 := by
  apply BitVec.eq_of_getLsbD_eq
  intro j hj
  rw [getLsbD_byte _ _ _ hj]
  have := foldl_shift_getLsbD (fun i => l.getD i 0) 16 (8 * (15 - i) + j) (by omega)
  rw [ofBytes, this, if_pos (by omega),
    show 16 - 1 - (8 * (15 - i) + j) / 8 = i by omega, show (8 * (15 - i) + j) % 8 = j by omega]

@[simp] theorem ofBytes_bytes (b : Block) : ofBytes (bytes b) = b := by
  apply ext_byte
  intro i hi
  simp [hi, List.getD_eq_getElem?_getD]

theorem bytes_ofBytes (l : List Byte) (h : l.length = 16) : bytes (ofBytes l) = l := by
  apply List.ext_getElem (by simp [h])
  intro i h1 h2
  have : i < 16 := by simpa using h1
  simp [this, List.getD_eq_getElem?_getD, h2]

/-- Bytes of an exclusive or. -/
@[simp] theorem byte_xor (a b : Block) (i : Nat) : byte (a ^^^ b) i = byte a i ^^^ byte b i := by
  apply BitVec.eq_of_getLsbD_eq
  intro j hj
  simp [getLsbD_byte _ _ _ hj]

theorem bytes_inj {a b : Block} (h : bytes a = bytes b) : a = b := by
  rw [← ofBytes_bytes a, h, ofBytes_bytes]

end Block

@[simp] theorem length_slice (s : List Byte) (a b : Nat) :
    (slice s a b).length = min (b - a) (s.length - a) := by simp [slice]

end Sys2Proof
end

