-- ==== Sys2Proof/Laws/Field.lean ====
section
/-! SUPPORT. What the steps of the multiply do. -/

namespace Sys2Proof.Machine

/-- The shift step is linear. -/
theorem shiftStep_xor (a b : Block) : shiftStep (a ^^^ b) = shiftStep a ^^^ shiftStep b := by
  apply BitVec.eq_of_getLsbD_eq
  intro i hi
  simp only [shiftStep, BitVec.getLsbD_xor, BitVec.getLsbD_ushiftRight]
  generalize 0xE1#128 <<< 120 = p
  cases ha : a.getLsbD 0 <;> cases hb : b.getLsbD 0 <;> simp <;>
    cases a.getLsbD (1 + i) <;> cases b.getLsbD (1 + i) <;> cases p.getLsbD i <;> rfl

theorem shiftStep_zero : shiftStep 0 = 0 := by decide

/-- The scanned bit is bit `8 i + j` from the most significant end. -/
theorem scanBit_eq (a : Block) (i j : Nat) (hi : i < 16) (hj : j < 8) :
    scanBit a i j = a.getMsbD (8 * i + j) := by
  have h : (Block.byte a i &&& (1#8 <<< (7 - j)) != 0) = (Block.byte a i).getLsbD (7 - j) := by
    generalize Block.byte a i = b
    obtain rfl | rfl | rfl | rfl | rfl | rfl | rfl | rfl :
      j = 0 ∨ j = 1 ∨ j = 2 ∨ j = 3 ∨ j = 4 ∨ j = 5 ∨ j = 6 ∨ j = 7 := by omega
    all_goals (revert b; decide)
  rw [scanBit, h, Block.getLsbD_byte _ _ _ (by omega), BitVec.getMsbD]
  have : 8 * i + j < 128 := by omega
  simp only [this, decide_true, Bool.true_and]
  congr 1
  omega

/-- A fold over the 8 bits of each of `m` bytes is one fold over `8 m` bits. -/
theorem foldl_range_nest {α : Type} (f : α → Nat → α) (m : Nat) (w : α) :
    (List.range m).foldl (fun w i => (List.range 8).foldl (fun w j => f w (8 * i + j)) w) w =
      (List.range (8 * m)).foldl f w := by
  induction m with
  | zero => rfl
  | succ m ih =>
    rw [List.range_succ (n := m), List.foldl_append, ih, show 8 * (m + 1) = 8 * m + 8 by ring,
      List.range_add, List.foldl_append]
    simp [List.foldl_map]

theorem foldl_congr_mem {α β : Type} (f g : α → β → α) (l : List β)
    (h : ∀ a, ∀ b ∈ l, f a b = g a b) (a : α) : l.foldl f a = l.foldl g a := by
  induction l generalizing a with
  | nil => rfl
  | cons b l ih =>
    simp only [List.foldl_cons]
    rw [h a b (by simp), ih (fun a b hb => h a b (by simp [hb]))]

/-- The multiply as one fold over the 128 bits of the scanned operand. -/
theorem mulUnit_flat (a b : Block) (w : Work) :
    mulUnit a b w = (List.range 128).foldl
      (fun w k => { w with z := if a.getMsbD k then w.z ^^^ w.v else w.z, v := shiftStep w.v })
      { w with z := 0, v := b } := by
  rw [mulUnit, ← foldl_range_nest _ 16]
  apply foldl_congr_mem
  intro w i hi
  apply foldl_congr_mem
  intro w j hj
  simp only [mulStep]
  rw [scanBit_eq a i j (List.mem_range.mp hi) (List.mem_range.mp hj)]

end Sys2Proof.Machine
end

