-- ==== Sys2Proof/Laws/Memory.lean ====
section
/-! SUPPORT. Laws of the byte buffers: read after write, the canonical form, and equality by reads. -/

namespace Sys2Proof.Machine.Memory

@[simp] theorem read_nil (a : Nat) : read [] a = 0 := rfl

@[simp] theorem read_zero (a : Nat) : read zero a = 0 := rfl

@[simp] theorem wf_zero : wf zero := ⟨List.Pairwise.nil, fun _ h => absurd h (by simp [zero])⟩

/-- An offset below every cell reads as the unlisted byte. -/
theorem read_of_lt {m : Memory} {a : Nat} (h : ∀ c ∈ m, a < c.1) : read m a = unlisted := by
  induction m with
  | nil => rfl
  | cons c m ih =>
    obtain ⟨b, v⟩ := c
    have hb : a < b := h (b, v) (by simp)
    rw [read, if_neg (by omega)]
    exact ih fun c hc => h c (by simp [hc])

/-- The read of a canonical buffer after a write: the byte written there, every other byte as before. -/
theorem read_write {m : Memory} (h : wf m) (a : Nat) (v : Byte) (b : Nat) :
    read (write m a v) b = if b = a then v else read m b := by
  induction m with
  | nil =>
    simp only [write]
    split_ifs with hv hb hb <;> simp_all [read, unlisted]
    all_goals intro h'; exact absurd h'.symm hb
  | cons c m ih =>
    obtain ⟨k, w⟩ := c
    obtain ⟨hp, hn⟩ := h
    have hlt : ∀ c ∈ m, k < c.1 := (List.pairwise_cons.mp hp).1
    have hm : wf m := ⟨(List.pairwise_cons.mp hp).2, fun c hc => hn c (by simp [hc])⟩
    simp only [write]
    by_cases h1 : a < k
    · rw [if_pos h1]
      have hread : read ((k, w) :: m) a = unlisted :=
        read_of_lt fun c hc => by
          rcases List.mem_cons.mp hc with rfl | hc
          · exact h1
          · exact lt_trans h1 (hlt c hc)
      by_cases hv : v = unlisted
      · rw [if_pos hv]
        split_ifs with hb
        · rw [hb, hread, hv]
        · rfl
      · rw [if_neg hv]
        by_cases hb : b = a
        · simp [read, hb]
        · rw [if_neg hb, read, if_neg (fun h => hb h.symm)]
    · rw [if_neg h1]
      by_cases h2 : a = k
      · subst h2
        rw [if_pos rfl]
        by_cases hv : v = unlisted
        · rw [if_pos hv]
          by_cases hb : b = a
          · rw [if_pos hb, hb, hv]
            exact read_of_lt hlt
          · rw [if_neg hb, read, if_neg (fun h => hb h.symm)]
        · rw [if_neg hv]
          by_cases hb : b = a
          · simp [read, hb]
          · rw [if_neg hb]
            rw [read, if_neg (fun h => hb h.symm), read, if_neg (fun h => hb h.symm)]
      · rw [if_neg h2]
        by_cases hk : k = b
        · subst hk
          rw [read, if_pos rfl, read, if_pos rfl, if_neg (fun h => h2 h.symm)]
        · simp [read, hk, ih hm]

theorem mem_write {m : Memory} {a : Nat} {v : Byte} {c : Host.Cell} (h : c ∈ write m a v) :
    c ∈ m ∨ (c = (a, v) ∧ v ≠ unlisted) := by
  induction m with
  | nil =>
    simp only [write] at h
    split_ifs at h with hv <;> simp_all
  | cons d m ih =>
    obtain ⟨k, w⟩ := d
    simp only [write] at h
    split_ifs at h with h1 hv h2 hv
    all_goals
      simp only [List.mem_cons] at h ⊢
      try tauto

/-- A write keeps the canonical form. -/
theorem wf_write {m : Memory} (h : wf m) (a : Nat) (v : Byte) : wf (write m a v) := by
  refine ⟨?_, fun c hc => ?_⟩
  · obtain ⟨hp, -⟩ := h
    induction m with
    | nil => simp only [write]; split_ifs <;> simp
    | cons d m ih =>
      obtain ⟨k, w⟩ := d
      have hlt : ∀ c ∈ m, k < c.1 := (List.pairwise_cons.mp hp).1
      have hm := (List.pairwise_cons.mp hp).2
      simp only [write]
      split_ifs with h1 hv h2 hv
      · exact hp
      · refine List.pairwise_cons.mpr ⟨fun c hc => ?_, hp⟩
        rcases List.mem_cons.mp hc with rfl | hc
        · exact h1
        · exact lt_trans h1 (hlt c hc)
      · exact hm
      · exact List.pairwise_cons.mpr ⟨fun c hc => h2 ▸ hlt c hc, hm⟩
      · refine List.pairwise_cons.mpr ⟨fun c hc => ?_, ih hm⟩
        rcases mem_write hc with hc | ⟨rfl, -⟩
        · exact hlt c hc
        · show k < a
          omega
  · rcases mem_write hc with hc | ⟨rfl, hv⟩
    · exact h.2 c hc
    · exact hv

/-- Writing a byte sequence keeps the canonical form. -/
theorem wf_writeBytes {m : Memory} (h : wf m) (a : Nat) (l : List Byte) : wf (writeBytes m a l) := by
  induction l generalizing m a with
  | nil => exact h
  | cons v l ih => exact ih (wf_write h a v) (a + 1)

/-- The read of a canonical buffer after a byte sequence was written. -/
theorem read_writeBytes {m : Memory} (h : wf m) (a : Nat) (l : List Byte) (b : Nat) :
    read (writeBytes m a l) b = if a ≤ b ∧ b < a + l.length then l.getD (b - a) 0 else read m b := by
  induction l generalizing m a with
  | nil => rw [writeBytes, if_neg (by simp)]
  | cons v l ih =>
    rw [writeBytes, ih (wf_write h a v), read_write h]
    by_cases h1 : b = a
    · subst h1
      simp
    · by_cases h2 : a + 1 ≤ b ∧ b < a + 1 + l.length
      · have h3 : a ≤ b ∧ b < a + (v :: l).length := by simp only [List.length_cons]; omega
        have h4 : b - a = (b - (a + 1)) + 1 := by omega
        rw [if_pos h2, if_pos h3, h4, List.getD_cons_succ]
      · have h3 : ¬ (a ≤ b ∧ b < a + (v :: l).length) := by simp only [List.length_cons]; omega
        rw [if_neg h2, if_neg h3, if_neg h1]

/-- The cells of a buffer after a byte sequence was written. -/
theorem mem_writeBytes {m : Memory} {a : Nat} {l : List Byte} {c : Host.Cell}
    (h : c ∈ writeBytes m a l) : c ∈ m ∨ (a ≤ c.1 ∧ c.1 < a + l.length) := by
  induction l generalizing m a with
  | nil => exact .inl h
  | cons v l ih =>
    rcases ih h with h | h
    · rcases mem_write h with h | ⟨rfl, -⟩
      · exact .inl h
      · right
        simp
    · right
      simp only [List.length_cons]
      omega

@[simp] theorem length_readBytes (m : Memory) (a n : Nat) : (readBytes m a n).length = n := by
  simp [readBytes]

@[simp] theorem getElem_readBytes (m : Memory) (a n i : Nat) (h : i < (readBytes m a n).length) :
    (readBytes m a n)[i] = read m (a + i) := by simp [readBytes]

/-- Reading back what was written. -/
theorem readBytes_writeBytes {m : Memory} (h : wf m) (a : Nat) (l : List Byte) :
    readBytes (writeBytes m a l) a l.length = l := by
  apply List.ext_getElem (by simp)
  intro i h1 h2
  rw [getElem_readBytes, read_writeBytes h, if_pos (by omega)]
  simp [List.getD_eq_getElem?_getD, h2]

theorem readBytes_congr {m m' : Memory} {a n : Nat} (h : ∀ i < n, read m (a + i) = read m' (a + i)) :
    readBytes m a n = readBytes m' a n := by
  apply List.map_congr_left
  intro i hi
  exact h i (List.mem_range.mp hi)

/-- Canonical buffers with the same bytes are the same data. -/
theorem ext_read {m m' : Memory} (h : wf m) (h' : wf m') (hr : ∀ a, read m a = read m' a) : m = m' := by
  induction m generalizing m' with
  | nil =>
    cases m' with
    | nil => rfl
    | cons d m' =>
      have := hr d.1
      exact absurd (by simpa [read, unlisted] using this.symm) (h'.2 d (by simp))
  | cons c m ih =>
    obtain ⟨k, w⟩ := c
    have hlt : ∀ c ∈ m, k < c.1 := (List.pairwise_cons.mp h.1).1
    have hm : wf m := ⟨(List.pairwise_cons.mp h.1).2, fun c hc => h.2 c (by simp [hc])⟩
    have hw : w ≠ unlisted := h.2 (k, w) (by simp)
    cases m' with
    | nil =>
      have := hr k
      exact absurd (by simpa [read, unlisted] using this) hw
    | cons d m' =>
      obtain ⟨k', w'⟩ := d
      have hlt' : ∀ c ∈ m', k' < c.1 := (List.pairwise_cons.mp h'.1).1
      have hm' : wf m' := ⟨(List.pairwise_cons.mp h'.1).2, fun c hc => h'.2 c (by simp [hc])⟩
      have hw' : w' ≠ unlisted := h'.2 (k', w') (by simp)
      have hk : k = k' := by
        rcases lt_trichotomy k k' with hl | he | hl
        · have h1 := hr k
          rw [show read ((k', w') :: m') k = unlisted from
            read_of_lt fun c hc => by
              rcases List.mem_cons.mp hc with rfl | hc
              · exact hl
              · exact lt_trans hl (hlt' c hc)] at h1
          exact absurd (by simpa [read] using h1) hw
        · exact he
        · have h1 := hr k'
          rw [show read ((k, w) :: m) k' = unlisted from
            read_of_lt fun c hc => by
              rcases List.mem_cons.mp hc with rfl | hc
              · exact hl
              · exact lt_trans hl (hlt c hc)] at h1
          exact absurd (by simpa [read] using h1.symm) hw'
      subst hk
      have hww : w = w' := by simpa [read] using hr k
      subst hww
      have : m = m' := ih hm hm' fun a => by
        by_cases ha : k = a
        · subst ha
          rw [read_of_lt hlt, read_of_lt hlt']
        · simpa [read, ha] using hr a
      rw [this]

end Sys2Proof.Machine.Memory
end

