-- ==== Sys2Proof/Laws/State.lean ====
section
/-! SUPPORT. One lemma per field per update of the state, true by rfl. -/

namespace Sys2Proof.Machine.State

/-! ### The STATUS part of the prologue. -/

@[simp] theorem clearOutcome_key (s : State) : s.clearOutcome.key = s.key := rfl
@[simp] theorem clearOutcome_keylen (s : State) : s.clearOutcome.keylen = s.keylen := rfl
@[simp] theorem clearOutcome_ctrblk (s : State) : s.clearOutcome.ctrblk = s.ctrblk := rfl
@[simp] theorem clearOutcome_nonce (s : State) : s.clearOutcome.nonce = s.nonce := rfl
@[simp] theorem clearOutcome_len (s : State) : s.clearOutcome.len = s.len := rfl
@[simp] theorem clearOutcome_olen (s : State) : s.clearOutcome.olen = s.olen := rfl
@[simp] theorem clearOutcome_ecnt (s : State) : s.clearOutcome.ecnt = s.ecnt := rfl
@[simp] theorem clearOutcome_done (s : State) : s.clearOutcome.done = s.done := rfl
@[simp] theorem clearOutcome_auth (s : State) : s.clearOutcome.auth = false := rfl
@[simp] theorem clearOutcome_err (s : State) : s.clearOutcome.err = 0 := rfl
@[simp] theorem clearOutcome_ibuf (s : State) : s.clearOutcome.ibuf = s.ibuf := rfl
@[simp] theorem clearOutcome_obuf (s : State) : s.clearOutcome.obuf = s.obuf := rfl
@[simp] theorem clearOutcome_work (s : State) : s.clearOutcome.work = s.work := rfl
@[simp] theorem clearOutcome_script (s : State) : s.clearOutcome.script = s.script := rfl
@[simp] theorem clearOutcome_reads (s : State) : s.clearOutcome.reads = s.reads := rfl

/-! ### The STATUS part of the success epilogue. -/

@[simp] theorem setSuccess_key (a : Bool) (s : State) : (s.setSuccess a).key = s.key := rfl
@[simp] theorem setSuccess_keylen (a : Bool) (s : State) : (s.setSuccess a).keylen = s.keylen := rfl
@[simp] theorem setSuccess_ctrblk (a : Bool) (s : State) : (s.setSuccess a).ctrblk = s.ctrblk := rfl
@[simp] theorem setSuccess_nonce (a : Bool) (s : State) : (s.setSuccess a).nonce = s.nonce := rfl
@[simp] theorem setSuccess_len (a : Bool) (s : State) : (s.setSuccess a).len = s.len := rfl
@[simp] theorem setSuccess_olen (a : Bool) (s : State) : (s.setSuccess a).olen = s.olen := rfl
@[simp] theorem setSuccess_ecnt (a : Bool) (s : State) : (s.setSuccess a).ecnt = s.ecnt := rfl
@[simp] theorem setSuccess_done (a : Bool) (s : State) : (s.setSuccess a).done = true := rfl
@[simp] theorem setSuccess_auth (a : Bool) (s : State) : (s.setSuccess a).auth = a := rfl
@[simp] theorem setSuccess_err (a : Bool) (s : State) : (s.setSuccess a).err = s.err := rfl
@[simp] theorem setSuccess_ibuf (a : Bool) (s : State) : (s.setSuccess a).ibuf = s.ibuf := rfl
@[simp] theorem setSuccess_obuf (a : Bool) (s : State) : (s.setSuccess a).obuf = s.obuf := rfl
@[simp] theorem setSuccess_work (a : Bool) (s : State) : (s.setSuccess a).work = s.work := rfl
@[simp] theorem setSuccess_script (a : Bool) (s : State) : (s.setSuccess a).script = s.script := rfl
@[simp] theorem setSuccess_reads (a : Bool) (s : State) : (s.setSuccess a).reads = s.reads := rfl

/-! ### The STATUS part of the failure exit. -/

@[simp] theorem setFailure_key (e : CmdError) (s : State) : (s.setFailure e).key = s.key := rfl
@[simp] theorem setFailure_keylen (e : CmdError) (s : State) : (s.setFailure e).keylen = s.keylen := rfl
@[simp] theorem setFailure_ctrblk (e : CmdError) (s : State) : (s.setFailure e).ctrblk = s.ctrblk := rfl
@[simp] theorem setFailure_nonce (e : CmdError) (s : State) : (s.setFailure e).nonce = s.nonce := rfl
@[simp] theorem setFailure_len (e : CmdError) (s : State) : (s.setFailure e).len = s.len := rfl
@[simp] theorem setFailure_olen (e : CmdError) (s : State) : (s.setFailure e).olen = s.olen := rfl
@[simp] theorem setFailure_ecnt (e : CmdError) (s : State) : (s.setFailure e).ecnt = s.ecnt := rfl
@[simp] theorem setFailure_done (e : CmdError) (s : State) : (s.setFailure e).done = true := rfl
@[simp] theorem setFailure_auth (e : CmdError) (s : State) : (s.setFailure e).auth = false := rfl
@[simp] theorem setFailure_err (e : CmdError) (s : State) : (s.setFailure e).err = e.code := rfl
@[simp] theorem setFailure_ibuf (e : CmdError) (s : State) : (s.setFailure e).ibuf = s.ibuf := rfl
@[simp] theorem setFailure_obuf (e : CmdError) (s : State) : (s.setFailure e).obuf = s.obuf := rfl
@[simp] theorem setFailure_work (e : CmdError) (s : State) : (s.setFailure e).work = s.work := rfl
@[simp] theorem setFailure_script (e : CmdError) (s : State) : (s.setFailure e).script = s.script := rfl
@[simp] theorem setFailure_reads (e : CmdError) (s : State) : (s.setFailure e).reads = s.reads := rfl

/-! ### The working registers of a unit. -/

@[simp] theorem setWork_key (w : Work) (s : State) : (s.setWork w).key = s.key := rfl
@[simp] theorem setWork_keylen (w : Work) (s : State) : (s.setWork w).keylen = s.keylen := rfl
@[simp] theorem setWork_ctrblk (w : Work) (s : State) : (s.setWork w).ctrblk = s.ctrblk := rfl
@[simp] theorem setWork_nonce (w : Work) (s : State) : (s.setWork w).nonce = s.nonce := rfl
@[simp] theorem setWork_len (w : Work) (s : State) : (s.setWork w).len = s.len := rfl
@[simp] theorem setWork_olen (w : Work) (s : State) : (s.setWork w).olen = s.olen := rfl
@[simp] theorem setWork_ecnt (w : Work) (s : State) : (s.setWork w).ecnt = s.ecnt := rfl
@[simp] theorem setWork_done (w : Work) (s : State) : (s.setWork w).done = s.done := rfl
@[simp] theorem setWork_auth (w : Work) (s : State) : (s.setWork w).auth = s.auth := rfl
@[simp] theorem setWork_err (w : Work) (s : State) : (s.setWork w).err = s.err := rfl
@[simp] theorem setWork_ibuf (w : Work) (s : State) : (s.setWork w).ibuf = s.ibuf := rfl
@[simp] theorem setWork_obuf (w : Work) (s : State) : (s.setWork w).obuf = s.obuf := rfl
@[simp] theorem setWork_work (w : Work) (s : State) : (s.setWork w).work = w := rfl
@[simp] theorem setWork_script (w : Work) (s : State) : (s.setWork w).script = s.script := rfl
@[simp] theorem setWork_reads (w : Work) (s : State) : (s.setWork w).reads = s.reads := rfl

/-! ### The prologue. -/

@[simp] theorem prologue_key (s : State) : s.prologue.key = s.key := rfl
@[simp] theorem prologue_keylen (s : State) : s.prologue.keylen = s.keylen := rfl
@[simp] theorem prologue_ctrblk (s : State) : s.prologue.ctrblk = s.ctrblk := rfl
@[simp] theorem prologue_nonce (s : State) : s.prologue.nonce = s.nonce := rfl
@[simp] theorem prologue_len (s : State) : s.prologue.len = s.len := rfl
@[simp] theorem prologue_olen (s : State) : s.prologue.olen = 0 := rfl
@[simp] theorem prologue_ecnt (s : State) : s.prologue.ecnt = 0 := rfl
@[simp] theorem prologue_done (s : State) : s.prologue.done = s.done := rfl
@[simp] theorem prologue_auth (s : State) : s.prologue.auth = false := rfl
@[simp] theorem prologue_err (s : State) : s.prologue.err = 0 := rfl
@[simp] theorem prologue_ibuf (s : State) : s.prologue.ibuf = s.ibuf := rfl
@[simp] theorem prologue_obuf (s : State) : s.prologue.obuf = Memory.zero := rfl
@[simp] theorem prologue_work (s : State) : s.prologue.work = Work.zero := rfl
@[simp] theorem prologue_script (s : State) : s.prologue.script = s.script := rfl
@[simp] theorem prologue_reads (s : State) : s.prologue.reads = s.reads := rfl

/-! ### The success epilogue. -/

@[simp] theorem epilogue_key (out : List Byte) (cnt : Nat) (a : Bool) (s : State) : (s.epilogue out cnt a).key = s.key := rfl
@[simp] theorem epilogue_keylen (out : List Byte) (cnt : Nat) (a : Bool) (s : State) : (s.epilogue out cnt a).keylen = s.keylen := rfl
@[simp] theorem epilogue_ctrblk (out : List Byte) (cnt : Nat) (a : Bool) (s : State) : (s.epilogue out cnt a).ctrblk = s.ctrblk := rfl
@[simp] theorem epilogue_nonce (out : List Byte) (cnt : Nat) (a : Bool) (s : State) : (s.epilogue out cnt a).nonce = s.nonce := rfl
@[simp] theorem epilogue_len (out : List Byte) (cnt : Nat) (a : Bool) (s : State) : (s.epilogue out cnt a).len = s.len := rfl
@[simp] theorem epilogue_olen (out : List Byte) (cnt : Nat) (a : Bool) (s : State) : (s.epilogue out cnt a).olen = BitVec.ofNat 32 out.length := rfl
@[simp] theorem epilogue_ecnt (out : List Byte) (cnt : Nat) (a : Bool) (s : State) : (s.epilogue out cnt a).ecnt = BitVec.ofNat 32 cnt := rfl
@[simp] theorem epilogue_done (out : List Byte) (cnt : Nat) (a : Bool) (s : State) : (s.epilogue out cnt a).done = true := rfl
@[simp] theorem epilogue_auth (out : List Byte) (cnt : Nat) (a : Bool) (s : State) : (s.epilogue out cnt a).auth = a := rfl
@[simp] theorem epilogue_err (out : List Byte) (cnt : Nat) (a : Bool) (s : State) : (s.epilogue out cnt a).err = s.err := rfl
@[simp] theorem epilogue_ibuf (out : List Byte) (cnt : Nat) (a : Bool) (s : State) : (s.epilogue out cnt a).ibuf = s.ibuf := rfl
@[simp] theorem epilogue_obuf (out : List Byte) (cnt : Nat) (a : Bool) (s : State) : (s.epilogue out cnt a).obuf = Memory.writeBytes s.obuf 0 out := rfl
@[simp] theorem epilogue_work (out : List Byte) (cnt : Nat) (a : Bool) (s : State) : (s.epilogue out cnt a).work = Work.zero := rfl
@[simp] theorem epilogue_script (out : List Byte) (cnt : Nat) (a : Bool) (s : State) : (s.epilogue out cnt a).script = s.script := rfl
@[simp] theorem epilogue_reads (out : List Byte) (cnt : Nat) (a : Bool) (s : State) : (s.epilogue out cnt a).reads = s.reads := rfl

/-! ### The failure exit. -/

@[simp] theorem failExit_key (e : CmdError) (cnt : Nat) (s : State) : (s.failExit e cnt).key = s.key := rfl
@[simp] theorem failExit_keylen (e : CmdError) (cnt : Nat) (s : State) : (s.failExit e cnt).keylen = s.keylen := rfl
@[simp] theorem failExit_ctrblk (e : CmdError) (cnt : Nat) (s : State) : (s.failExit e cnt).ctrblk = s.ctrblk := rfl
@[simp] theorem failExit_nonce (e : CmdError) (cnt : Nat) (s : State) : (s.failExit e cnt).nonce = s.nonce := rfl
@[simp] theorem failExit_len (e : CmdError) (cnt : Nat) (s : State) : (s.failExit e cnt).len = s.len := rfl
@[simp] theorem failExit_olen (e : CmdError) (cnt : Nat) (s : State) : (s.failExit e cnt).olen = 0 := rfl
@[simp] theorem failExit_ecnt (e : CmdError) (cnt : Nat) (s : State) : (s.failExit e cnt).ecnt = if e = .authenticationFailure then BitVec.ofNat 32 cnt else 0 := rfl
@[simp] theorem failExit_done (e : CmdError) (cnt : Nat) (s : State) : (s.failExit e cnt).done = true := rfl
@[simp] theorem failExit_auth (e : CmdError) (cnt : Nat) (s : State) : (s.failExit e cnt).auth = false := rfl
@[simp] theorem failExit_err (e : CmdError) (cnt : Nat) (s : State) : (s.failExit e cnt).err = e.code := rfl
@[simp] theorem failExit_ibuf (e : CmdError) (cnt : Nat) (s : State) : (s.failExit e cnt).ibuf = s.ibuf := rfl
@[simp] theorem failExit_obuf (e : CmdError) (cnt : Nat) (s : State) : (s.failExit e cnt).obuf = Memory.zero := rfl
@[simp] theorem failExit_work (e : CmdError) (cnt : Nat) (s : State) : (s.failExit e cnt).work = Work.zero := rfl
@[simp] theorem failExit_script (e : CmdError) (cnt : Nat) (s : State) : (s.failExit e cnt).script = s.script := rfl
@[simp] theorem failExit_reads (e : CmdError) (cnt : Nat) (s : State) : (s.failExit e cnt).reads = s.reads := rfl

/-! ### The reset event. -/

@[simp] theorem applyReset_key (s : State) : s.applyReset.key = State.reset.key := rfl
@[simp] theorem applyReset_keylen (s : State) : s.applyReset.keylen = State.reset.keylen := rfl
@[simp] theorem applyReset_ctrblk (s : State) : s.applyReset.ctrblk = State.reset.ctrblk := rfl
@[simp] theorem applyReset_nonce (s : State) : s.applyReset.nonce = State.reset.nonce := rfl
@[simp] theorem applyReset_len (s : State) : s.applyReset.len = State.reset.len := rfl
@[simp] theorem applyReset_olen (s : State) : s.applyReset.olen = State.reset.olen := rfl
@[simp] theorem applyReset_ecnt (s : State) : s.applyReset.ecnt = State.reset.ecnt := rfl
@[simp] theorem applyReset_done (s : State) : s.applyReset.done = State.reset.done := rfl
@[simp] theorem applyReset_auth (s : State) : s.applyReset.auth = State.reset.auth := rfl
@[simp] theorem applyReset_err (s : State) : s.applyReset.err = State.reset.err := rfl
@[simp] theorem applyReset_ibuf (s : State) : s.applyReset.ibuf = State.reset.ibuf := rfl
@[simp] theorem applyReset_obuf (s : State) : s.applyReset.obuf = State.reset.obuf := rfl
@[simp] theorem applyReset_work (s : State) : s.applyReset.work = State.reset.work := rfl
@[simp] theorem applyReset_script (s : State) : s.applyReset.script = s.script := rfl
@[simp] theorem applyReset_reads (s : State) : s.applyReset.reads = s.reads := rfl

/-! ### A command byte at the head of the script. -/

@[simp] theorem withCommandByte_key (s : State) (v : Byte) : (s.withCommandByte v).key = s.key := rfl
@[simp] theorem withCommandByte_keylen (s : State) (v : Byte) : (s.withCommandByte v).keylen = s.keylen := rfl
@[simp] theorem withCommandByte_ctrblk (s : State) (v : Byte) : (s.withCommandByte v).ctrblk = s.ctrblk := rfl
@[simp] theorem withCommandByte_nonce (s : State) (v : Byte) : (s.withCommandByte v).nonce = s.nonce := rfl
@[simp] theorem withCommandByte_len (s : State) (v : Byte) : (s.withCommandByte v).len = s.len := rfl
@[simp] theorem withCommandByte_olen (s : State) (v : Byte) : (s.withCommandByte v).olen = s.olen := rfl
@[simp] theorem withCommandByte_ecnt (s : State) (v : Byte) : (s.withCommandByte v).ecnt = s.ecnt := rfl
@[simp] theorem withCommandByte_done (s : State) (v : Byte) : (s.withCommandByte v).done = s.done := rfl
@[simp] theorem withCommandByte_auth (s : State) (v : Byte) : (s.withCommandByte v).auth = s.auth := rfl
@[simp] theorem withCommandByte_err (s : State) (v : Byte) : (s.withCommandByte v).err = s.err := rfl
@[simp] theorem withCommandByte_ibuf (s : State) (v : Byte) : (s.withCommandByte v).ibuf = s.ibuf := rfl
@[simp] theorem withCommandByte_obuf (s : State) (v : Byte) : (s.withCommandByte v).obuf = s.obuf := rfl
@[simp] theorem withCommandByte_work (s : State) (v : Byte) : (s.withCommandByte v).work = s.work := rfl
@[simp] theorem withCommandByte_script (s : State) (v : Byte) : (s.withCommandByte v).script = .hwr 0 v :: s.script := rfl
@[simp] theorem withCommandByte_reads (s : State) (v : Byte) : (s.withCommandByte v).reads = s.reads := rfl

end Sys2Proof.Machine.State
end

