-- ==== Sys2Proof/Laws/Frame.lean ====
section
/-! SUPPORT. What the prologue, the success epilogue and the failure exit do, said once, and the key
check. -/

namespace Sys2Proof

theorem Config.bufSize_le (c : Config) : c.bufSize ≤ 2 ^ 28 := by
  have := c.bufExtra.isLt
  simp only [Config.bufSize]
  omega

theorem Config.le_bufSize (c : Config) : 44 ≤ c.bufSize := by simp [Config.bufSize]

namespace Machine

/-- The prologue keeps every operand. -/
theorem SameOperands.prologue (s : State) : SameOperands s s.prologue :=
  ⟨rfl, rfl, rfl, rfl, rfl, fun _ => rfl, rfl, rfl⟩

/-- So does what a unit leaves in the working registers. -/
theorem SameOperands.setWork {s t : State} (h : SameOperands s t) (w : Work) :
    SameOperands s (t.setWork w) :=
  ⟨h.key, h.keylen, h.ctrblk, h.nonce, h.len, h.ibuf, h.script, h.reads⟩

/-- The prologue forgets the results of the last command but DONE. -/
theorem prologue_congr {s t : State} (hk : t.key = s.key) (hkl : t.keylen = s.keylen)
    (hc : t.ctrblk = s.ctrblk) (hn : t.nonce = s.nonce) (hl : t.len = s.len) (hd : t.done = s.done)
    (hi : t.ibuf = s.ibuf) (hs : t.script = s.script) (hr : t.reads = s.reads) :
    t.prologue = s.prologue := by
  simp only [State.prologue, State.clearOutcome, hk, hkl, hc, hn, hl, hd, hi, hs, hr]

/-- The success epilogue from a state with the operands of `s` and no result yet. -/
theorem epilogue_succeeds {s u : State} (out : List Byte) (cnt : Nat) (auth : Bool)
    (hf : SameOperands s u) (ho : u.obuf = Memory.zero) (he : u.err = 0)
    (hn : out.length < 2 ^ 32) (hc : cnt < 2 ^ 32) : Succeeds s (u.epilogue out cnt auth) out cnt auth where
  status := ⟨rfl, rfl, he⟩
  statusByte := by
    simp only [State.status, State.epilogue_done, State.epilogue_auth, State.epilogue_err, he]
    cases auth <;> decide
  olen := by simpa using Nat.mod_eq_of_lt hn
  ecnt := by simpa using Nat.mod_eq_of_lt hc
  output := by
    rw [State.epilogue_obuf, ho]
    exact Memory.readBytes_writeBytes Memory.wf_zero 0 out
  zeroBeyond a ha := by
    rw [State.epilogue_obuf, ho, Memory.read_writeBytes Memory.wf_zero, if_neg (by omega), Memory.read_zero]
  work := rfl
  frame := ⟨hf.key, hf.keylen, hf.ctrblk, hf.nonce, hf.len, hf.ibuf, hf.script, hf.reads⟩

/-- The failure exit from a state with the operands of `s`. -/
theorem failExit_fails {s u : State} (e : CmdError) (cnt : Nat) (hf : SameOperands s u)
    (hc : cnt < 2 ^ 32) (h0 : e ≠ .authenticationFailure → cnt = 0) : FailsWith s (u.failExit e cnt) e cnt where
  status := ⟨rfl, rfl, rfl⟩
  statusByte := by
    simp only [State.status, State.failExit_done, State.failExit_auth, State.failExit_err]
    cases e <;> decide
  olen := rfl
  ecnt := by
    rw [State.failExit_ecnt]
    split_ifs with h
    · simpa using Nat.mod_eq_of_lt hc
    · simp [h0 h]
  obuf := Memory.read_zero
  work := rfl
  frame := ⟨hf.key, hf.keylen, hf.ctrblk, hf.nonce, hf.len, hf.ibuf, hf.script, hf.reads⟩

/-- The failure exit straight after the prologue. -/
theorem prologue_failExit_fails (s : State) (e : CmdError) : FailsWith s (s.prologue.failExit e 0) e 0 :=
  failExit_fails e 0 (SameOperands.prologue s) (by simp) fun _ => rfl

theorem keyOf_eq_some {c : Config} {s : State} (h : c.keySizeOk s.keylen.toNat = true) :
    s.keyOf c = some (s.key.toList.take s.keylen.toNat) := by
  simp [State.keyOf, h]

theorem keyOf_eq_none {c : Config} {s : State} (h : c.keySizeOk s.keylen.toNat = false) :
    s.keyOf c = none := by
  simp [State.keyOf, h]

/-- Two successes with the same output leave the same results. -/
theorem Succeeds.sameResults {s s' t t' : State} {out : List Byte} {cnt : Nat} {auth : Bool}
    (h : Succeeds s t out cnt auth) (h' : Succeeds s' t' out cnt auth) : SameResults t t' := by
  refine ⟨by rw [h.status.1, h'.status.1], by rw [h.status.2.1, h'.status.2.1],
    by rw [h.status.2.2, h'.status.2.2], BitVec.eq_of_toNat_eq (by rw [h.olen, h'.olen]),
    BitVec.eq_of_toNat_eq (by rw [h.ecnt, h'.ecnt]), fun a => ?_⟩
  by_cases ha : a < out.length
  · have h1 : (Memory.readBytes t.obuf 0 out.length)[a]? = (Memory.readBytes t'.obuf 0 out.length)[a]? := by
      rw [h.output, h'.output]
    rw [List.getElem?_eq_getElem (by simpa), List.getElem?_eq_getElem (by simpa)] at h1
    simpa using h1.symm
  · rw [h.zeroBeyond a (by omega), h'.zeroBeyond a (by omega)]

/-- Two failures with the same error and count leave the same results. -/
theorem FailsWith.sameResults {s s' t t' : State} {e : CmdError} {cnt : Nat}
    (h : FailsWith s t e cnt) (h' : FailsWith s' t' e cnt) : SameResults t t' :=
  ⟨by rw [h.status.1, h'.status.1], by rw [h.status.2.1, h'.status.2.1],
    by rw [h.status.2.2, h'.status.2.2], by rw [h.olen, h'.olen],
    BitVec.eq_of_toNat_eq (by rw [h.ecnt, h'.ecnt]), fun a => by rw [h.obuf, h'.obuf]⟩

end Machine
end Sys2Proof
end

