-- ==== Sys2Proof/Laws/Keystream.lean ====
section
/-! SUPPORT. What the keystream loop and the counter increment do. -/

namespace Sys2Proof.Machine

/-- The loop of the generator, with enough blocks of fuel: its output byte by byte, its count, and the
counter and keystream block of the last block it used. -/
theorem keystreamLoop_spec (c : Config) (key : List Byte) (fuel : Nat) (data : List Byte) (w : Work)
    (hd : 0 < data.length) (hf : data.length ≤ 16 * fuel) :
    let r := keystreamLoop c key fuel data w
    let last := inc32^[(data.length - 1) / 16] w.ctr
    r.out.length = data.length ∧ r.cnt = ceil16 data.length ∧
      r.work = { w with ctr := last, s := c.cipher key last } ∧
      ∀ (i : Nat) (h : i < data.length),
        r.out[i]? = some (data[i] ^^^ Block.byte (c.cipher key (inc32^[i / 16] w.ctr)) (i % 16)) := by
  induction fuel generalizing data w with
  | zero => omega
  | succ fuel ih =>
    simp only [keystreamLoop]
    split_ifs with h16
    · have h0 : (data.length - 1) / 16 = 0 := by omega
      refine ⟨by simp; omega, by simp only [ceil16]; omega, by rw [h0]; rfl, fun i hi => ?_⟩
      have hl : i < (xorBytes (data.take 16) (Block.bytes (c.cipher key w.ctr))).length := by simp; omega
      rw [List.getElem?_eq_getElem hl, getElem_xorBytes]
      have h1 : i / 16 = 0 := by omega
      have h2 : i % 16 = i := by omega
      simp [h1, h2]
    · obtain ⟨h1, h2, hw, h3⟩ := ih (data.drop 16) { w with s := c.cipher key w.ctr, ctr := inc32 w.ctr }
        (by simp; omega) (by simp; omega)
      refine ⟨by simp [h1]; omega, by rw [h2]; simp only [ceil16, List.length_drop]; omega, ?_,
        fun i hi => ?_⟩
      · have h4 : (data.length - 1) / 16 = (data.length - 16 - 1) / 16 + 1 := by omega
        rw [hw, h4, List.length_drop, Function.iterate_succ]
        rfl
      have hl : (xorBytes (data.take 16) (Block.bytes (c.cipher key w.ctr))).length = 16 := by simp; omega
      by_cases hi16 : i < 16
      · rw [List.getElem?_append_left (by omega), List.getElem?_eq_getElem (by omega), getElem_xorBytes]
        have h1 : i / 16 = 0 := by omega
        have h2 : i % 16 = i := by omega
        simp [h1, h2]
      · rw [List.getElem?_append_right (by omega), hl, h3 (i - 16) (by simp; omega)]
        have h4 : i / 16 = (i - 16) / 16 + 1 := by omega
        have h5 : i % 16 = (i - 16) % 16 := by omega
        simp only [List.getElem_drop, h4, Function.iterate_succ, Function.comp, h5]
        simp [show 16 + (i - 16) = i by omega]

theorem extractLsb'_append32 (x : BitVec 96) (y : BitVec 32) :
    (x ++ y : BitVec (96 + 32)).extractLsb' 0 32 = y := by
  apply BitVec.eq_of_getLsbD_eq
  intro j hj
  rw [BitVec.getLsbD_extractLsb', BitVec.getLsbD_append]
  simp [hj]

/-- The increment adds one to the low 32 bits. -/
theorem inc32_low (c : Block) : (inc32 c).extractLsb' 0 32 = c.extractLsb' 0 32 + 1#32 :=
  extractLsb'_append32 _ _

/-- Byte `i` of a block built of 96 and 32 bits. -/
theorem byte_append32 (x : BitVec 96) (y : BitVec 32) (i : Nat) (hi : i < 16) :
    Block.byte (x ++ y : BitVec (96 + 32)) i =
      if i < 12 then x.extractLsb' (8 * (11 - i)) 8 else y.extractLsb' (8 * (15 - i)) 8 := by
  apply BitVec.eq_of_getLsbD_eq
  intro j hj
  rw [Block.getLsbD_byte _ _ _ hj]
  erw [BitVec.getLsbD_append]
  split_ifs with h1 h2 h2
  · omega
  · simp [hj]
  · simp [hj]; congr 1; omega
  · omega

end Sys2Proof.Machine
end

