-- ==== Sys2Proof/Laws/PerInstr.lean ====
section
/-! SUPPORT. Facts stated for every command, one lemma per constructor. -/

/-- The command has exactly one row in the opcode map, with the UNIT and OP of its code, and its one-byte
encoding decodes to it (30_encoding.md R90, R91). -/
def Sys2Proof.Laws.OpcodeRow.Statement (i : Sys2Proof.Instr) : Prop :=
  (Sys2Proof.opcodeMap.filter fun r => r.instr = i) =
      [⟨Sys2Proof.unitField (Sys2Proof.encodeByte i), Sys2Proof.opField (Sys2Proof.encodeByte i), i⟩] ∧
    i.wf = true ∧ (Sys2Proof.encode i).length = 1 ∧ Sys2Proof.decodeByte (Sys2Proof.encodeByte i) = some i

theorem Sys2Proof.Laws.OpcodeRow.clr : Sys2Proof.Laws.OpcodeRow.Statement .clr := by
  refine ⟨?_, ?_, ?_, ?_⟩ <;> decide
theorem Sys2Proof.Laws.OpcodeRow.ksGen : Sys2Proof.Laws.OpcodeRow.Statement .ksGen := by
  refine ⟨?_, ?_, ?_, ?_⟩ <;> decide
theorem Sys2Proof.Laws.OpcodeRow.ksApply : Sys2Proof.Laws.OpcodeRow.Statement .ksApply := by
  refine ⟨?_, ?_, ?_, ?_⟩ <;> decide
theorem Sys2Proof.Laws.OpcodeRow.gfMul : Sys2Proof.Laws.OpcodeRow.Statement .gfMul := by
  refine ⟨?_, ?_, ?_, ?_⟩ <;> decide
theorem Sys2Proof.Laws.OpcodeRow.fdDigest : Sys2Proof.Laws.OpcodeRow.Statement .fdDigest := by
  refine ⟨?_, ?_, ?_, ?_⟩ <;> decide
theorem Sys2Proof.Laws.OpcodeRow.envOpen : Sys2Proof.Laws.OpcodeRow.Statement .envOpen := by
  refine ⟨?_, ?_, ?_, ?_⟩ <;> decide
theorem Sys2Proof.Laws.OpcodeRow.envSeal : Sys2Proof.Laws.OpcodeRow.Statement .envSeal := by
  refine ⟨?_, ?_, ?_, ?_⟩ <;> decide
end

