-- ==== Sys2Proof/Laws/Port.lean ====
section
/-! SUPPORT. What the host port does: the register map by number, and one step of each kind of event. -/

namespace Sys2Proof.Machine

/-! ### The register map -/

/-- The location of an address, by the number of its space and its offset. -/
theorem locate_eq (c : Config) (a : Addr) : locate c a =
    match a.toNat / 2 ^ 30 with
    | 0 => registerAt (a.toNat % 2 ^ 30)
    | 1 => if a.toNat % 2 ^ 30 < c.bufSize then some (.ibuf (a.toNat % 2 ^ 30)) else none
    | 2 => if a.toNat % 2 ^ 30 < c.bufSize then some (.obuf (a.toNat % 2 ^ 30)) else none
    | _ => none := by
  have h1 : (a.extractLsb' 30 2).toNat = a.toNat / 2 ^ 30 := by
    simp [BitVec.extractLsb'_toNat, Nat.shiftRight_eq_div_pow]
    omega
  have h2 : (a.extractLsb' 0 30).toNat = a.toNat % 2 ^ 30 := by
    simp [BitVec.extractLsb'_toNat]
  simp only [locate, h1, h2] <;> rfl

/-- An address in the register space. -/
theorem locate_reg (c : Config) (n : Nat) (hn : n < 2 ^ 30) :
    locate c (BitVec.ofNat 32 n) = registerAt n := by
  have h1 : ((BitVec.ofNat 32 n).extractLsb' 30 2).toNat = 0 := by
    simp [BitVec.extractLsb'_toNat, Nat.shiftRight_eq_div_pow]
    omega
  have h2 : ((BitVec.ofNat 32 n).extractLsb' 0 30).toNat = n := by
    simp [BitVec.extractLsb'_toNat]
    omega
  simp only [locate, h1, h2]

theorem locate_ibuf (c : Config) (n : Nat) (hn : n < c.bufSize) :
    locate c (BitVec.ofNat 32 (0x40000000 + n)) = some (.ibuf n) := by
  have := c.bufSize_le
  have h0 : (BitVec.ofNat 32 (0x40000000 + n)).toNat = 0x40000000 + n := by simp; omega
  rw [locate_eq, h0, show (0x40000000 + n) / 2 ^ 30 = 1 by omega,
    show (0x40000000 + n) % 2 ^ 30 = n by omega]
  simp [hn]

theorem locate_obuf (c : Config) (n : Nat) (hn : n < c.bufSize) :
    locate c (BitVec.ofNat 32 (0x80000000 + n)) = some (.obuf n) := by
  have := c.bufSize_le
  have h0 : (BitVec.ofNat 32 (0x80000000 + n)).toNat = 0x80000000 + n := by simp; omega
  rw [locate_eq, h0, show (0x80000000 + n) / 2 ^ 30 = 2 by omega,
    show (0x80000000 + n) % 2 ^ 30 = n by omega]
  simp [hn]

/-- The reserved offsets of the register space. -/
theorem registerAt_eq_none (off : Nat) :
    registerAt off = none ↔ off = 0x03 ∨ (0x2C ≤ off ∧ off ≤ 0x3F) ∨ 0x60 ≤ off := by
  simp only [registerAt]
  split_ifs <;> simp <;> omega

/-- An address has no location exactly if it is unmapped. -/
theorem locate_eq_none (c : Config) (a : Addr) : locate c a = none ↔ Unmapped c a := by
  rw [locate_eq]
  simp only [Unmapped]
  have h4 : a.toNat / 2 ^ 30 < 4 := by omega
  generalize a.toNat % 2 ^ 30 = off
  generalize a.toNat / 2 ^ 30 = sp at *
  obtain rfl | rfl | rfl | rfl : sp = 0 ∨ sp = 1 ∨ sp = 2 ∨ sp = 3 := by omega
  · simp [registerAt_eq_none]
  · simp
  · simp
  · simp

theorem registerAt_eq_cmd {off : Nat} (h : registerAt off = some .cmd) : off = 0 := by
  by_contra h0
  revert h
  rw [registerAt, if_neg h0]
  iterate 10
    (refine iteInduction (motive := fun x => ¬ x = some Location.cmd) (fun _ => by simp) fun _ => ?_)
  simp

/-- The register space holds no byte of IBUF. -/
theorem registerAt_ne_ibuf (n off : Nat) : registerAt n ≠ some (.ibuf off) := by
  rw [registerAt]
  iterate 11
    (refine iteInduction (motive := fun x => x ≠ some (Location.ibuf off)) (fun _ => by simp) fun _ => ?_)
  simp

/-- CMD has one address. -/
theorem locate_eq_cmd (c : Config) (a : Addr) : locate c a = some .cmd ↔ a = 0 := by
  rw [locate_eq]
  constructor
  · intro h
    split at h
    · have := registerAt_eq_cmd h
      apply BitVec.eq_of_toNat_eq
      simp
      omega
    · split_ifs at h; cases h
    · split_ifs at h; cases h
    · cases h
  · rintro rfl; rfl

/-- A location in IBUF is within `BUF_SIZE`. -/
theorem lt_bufSize_of_locate {c : Config} {a : Addr} {off : Nat} (h : locate c a = some (.ibuf off)) :
    off < c.bufSize := by
  rw [locate_eq] at h
  split at h
  · exact absurd h (registerAt_ne_ibuf _ _)
  · split_ifs at h; cases h; assumption
  · split_ifs at h; cases h
  · cases h

/-! ### One step -/

theorem step_of_script {s : State} {e : HostEvent} {rest : List HostEvent} (h : s.script = e :: rest) :
    step s = portEvent Config.chosen e { s with script := rest } := by
  simp only [step, nextEvent, h]

theorem step_of_empty_script {s : State} (h : s.script = []) : step s = .next s := by
  simp only [step, nextEvent, h]

/-- A host read of a mapped address. -/
theorem step_read {s : State} {rest : List HostEvent} {a : Addr} {l : Location}
    (h : locate Config.chosen a = some l) :
    step { s with script := .hrd a :: rest } =
      .next { s with script := rest, reads := s.readLocation l :: s.reads } := by
  simp only [step, nextEvent, portEvent, hostRead, h]
  cases l <;> rfl

/-- A host write to a mapped address other than CMD. -/
theorem step_write {s : State} {rest : List HostEvent} {a : Addr} {v : Byte} {l : Location}
    (h : locate Config.chosen a = some l) (hl : l ≠ .cmd) :
    step { s with script := .hwr a v :: rest } =
      .next ({ s with script := rest }.writeLocation v l) := by
  simp [step, nextEvent, portEvent, hostWrite, h]

/-- A write to a location changes no result, no working register and nothing of the host's side. -/
theorem writeLocation_frame (s : State) (v : Byte) (l : Location) :
    SameResults s (s.writeLocation v l) ∧ (s.writeLocation v l).work = s.work ∧
      (s.writeLocation v l).script = s.script ∧ (s.writeLocation v l).reads = s.reads := by
  cases l <;> exact ⟨⟨rfl, rfl, rfl, rfl, rfl, fun _ => rfl⟩, rfl, rfl, rfl⟩

/-- A byte that is no command's code is rejected under its own value. -/
theorem decode_of_reserved {v : Byte} (hv : ∀ i, encodeByte i ≠ v) :
    decode [v] = .error (.reservedCode v) := by
  have h : ∀ v : Byte,
      (∀ i ∈ [Instr.clr, .ksGen, .ksApply, .gfMul, .fdDigest, .envOpen, .envSeal], encodeByte i ≠ v) →
        decodeByte v = none := by decide
  simp only [decode, h v fun i _ => hv i]

end Sys2Proof.Machine
end

