-- ==== Sys2Proof/Laws/Run.lean ====
section
/-! SUPPORT. Running the machine for several steps. -/

namespace Sys2Proof.Laws

theorem core_run_next {M : Host.Core} {n : Nat} {s t : M.State} (h : M.step s = .next t) :
    M.run (n + 1) s = M.run n t := by
  rw [Host.Core.run, h]

theorem core_run_refused {M : Host.Core} {n : Nat} {s : M.State} {r : M.Refusal}
    (h : M.step s = .refused r) : M.run (n + 1) s = .refused r := by
  rw [Host.Core.run, h]

end Sys2Proof.Laws

namespace Sys2Proof.Machine

theorem run_zero (s : State) : core.run 0 s = .next s := rfl

/-- A step that answers a next state, then the rest. -/
theorem run_of_next {n : Nat} {s t : State} (h : step s = .next t) : core.run (n + 1) s = core.run n t :=
  Sys2Proof.Laws.core_run_next (M := core) h

/-- A refused step ends the run. -/
theorem run_of_refused {n : Nat} {s : State} {r : Refusal} (h : step s = .refused r) :
    core.run (n + 1) s = .refused r :=
  Sys2Proof.Laws.core_run_refused (M := core) h

/-- A run in two parts. -/
theorem run_add {m n : Nat} {s u : State} (h : core.run m s = .next u) :
    core.run (m + n) s = core.run n u := by
  induction m generalizing s with
  | zero => cases h; rw [Nat.zero_add]
  | succ m ih =>
    rw [show m + 1 + n = (m + n) + 1 by omega]
    rcases hs : step s with s' | f | r
    · rw [run_of_next hs] at h ⊢; exact ih h
    · cases f
    · rw [run_of_refused hs] at h; cases h

end Sys2Proof.Machine
end

