-- ==== Sys2Proof/Tests/Slice0.lean ====
section
/-! SUPPORT. Tests whose expected values come from 95_test_vectors.md or from the opcode map, and a witness
for the hypotheses of every statement. -/

open Sys2Proof Sys2Proof.Machine

namespace Sys2Proof.Tests

/-! ### Helpers -/

/-- The `n` bytes of a big-endian number, to write the spec's hex strings. -/
def hex (n x : Nat) : List Byte := (List.range n).map fun i => BitVec.ofNat 8 (x / 256 ^ (n - 1 - i))

/-- The test instantiation T0 of 95_test_vectors.md, with `BUF_SIZE = 256` and the given fixed subkey. -/
def t0 (h : Block) : Config where
  cipher := fun _ b => b
  otherKeySize := fun n => n == 16 || n == 24
  fixedSubkey := h
  bufExtra := 212
  longLenBlock := fun _ => 0

/-- The test subkeys `H_ONE`, `H_X` and `H_GCM` of 95_test_vectors.md. -/
def hOne : Block := 1#128 <<< 127
def hX : Block := 1#128 <<< 126
def hGcm : Block := 0x66e94bd4ef8a2c3b884cfa59ca342b2e#128

/-- `N12`, the nonce of 95_test_vectors.md. -/
def n12 : List Byte := hex 12 0xa0a1a2a3a4a5a6a7a8a9aaab

/-- A state with the nonce `N12`, the counter block `CounterBlock(N12, 2)`, the given key length and the
given input at the start of IBUF. -/
def loaded (keylen : Byte) (input : List Byte) : State :=
  { State.reset with
    keylen := keylen
    nonce := Vector.ofFn fun i => n12[i]!
    ctrblk := Vector.ofFn fun i => (n12 ++ [0, 0, 0, 2])[i]!
    len := BitVec.ofNat 32 input.length
    ibuf := Memory.writeBytes Memory.zero 0 input }

/-- STATUS, OLEN, ECNT and the first `n` bytes of OBUF after a body run from a state. -/
def observe (body : State → BodyResult) (s : State) (n : Nat) : Byte × Nat × Nat × List Byte :=
  let t := (body s.prologue).finish
  (t.status, t.olen.toNat, t.ecnt.toNat, Memory.readBytes t.obuf 0 n)

/-! ### Functions, from the tables of 95_test_vectors.md -/

/-- V6: the wrap. -/
theorem test_inc32_wrap : inc32 0x000102030405060708090a0bffffffff#128 = 0x000102030405060708090a0b00000000#128 := by
  decide
/-- V3: a carry over two bytes. -/
theorem test_inc32_carry : inc32 0x000102030405060708090a0b0000ffff#128 = 0x000102030405060708090a0b00010000#128 := by
  decide
/-- V11: feedback. -/
theorem test_shiftStep_feedback : shiftStep (BitVec.allOnes 128) = 0x9effffffffffffffffffffffffffffff#128 := by
  decide
/-- V25. -/
theorem test_gfMul : gfMul 0x0388dace60b6a392f328c2b971b2fe78#128 hGcm = 0x5e2ec746917062882c85b0685353deb7#128 := by
  decide
set_option maxRecDepth 8000 in
/-- V23: the lowest bit squared. -/
theorem test_gfMul_lowest : gfMul 1#128 1#128 = 0xe6080000000000000000000000000003#128 := by decide
/-- V37: the largest length that has a length block. -/
theorem test_lenBlock : lenBlock (t0 hX) 536870911 = 0xfffffff8#128 := by decide
/-- The blocks of 17 bytes, 95_test_vectors.md section 2.4. -/
theorem test_blocks : blocks (hex 17 0x101112131415161718191a1b1c1d1e1f20) =
    [0x101112131415161718191a1b1c1d1e1f#128, 0x20000000000000000000000000000000#128] := by decide

/-! ### Commands -/

/-- P1, first row: a keystream over a block boundary. -/
theorem test_ksApply : observe (ksApplyBody (t0 hOne)) (loaded 32 (hex 17 0x303132333435363738393a3b3c3d3e3f40)) 17 =
    (0x80, 17, 2, hex 17 0x9090909090909090909090903c3d3e3de0) := by decide
set_option maxRecDepth 8000 in
/-- V68: the largest LEN. -/
theorem test_ksApply_length : observe (ksApplyBody (t0 hX)) { loaded 32 [] with len := 0xffffffff } 1 =
    (0x84, 0, 0, [0]) := by decide
/-- P1, second row: IBUF is ignored. -/
theorem test_ksGen : observe (ksGenBody (t0 hOne)) (loaded 32 (hex 17 0x303132333435363738393a3b3c3d3e3f40)) 17 =
    (0x80, 17, 2, hex 17 0xa0a1a2a3a4a5a6a7a8a9aaab00000002a0) := by decide
/-- V65: the key is checked at length zero. -/
theorem test_ksGen_key : observe (ksGenBody (t0 hX)) (loaded 33 []) 1 = (0x81, 0, 0, [0]) := by decide
set_option maxRecDepth 8000 in
/-- V25 as a command; LEN and KEYLEN do not matter. -/
theorem test_gfMul_command : observe gfMulBody
    { loaded 0 (hex 32 0x0388dace60b6a392f328c2b971b2fe7866e94bd4ef8a2c3b884cfa59ca342b2e) with len := 0 } 16 =
      (0x80, 16, 0, hex 16 0x5e2ec746917062882c85b0685353deb7) := by decide
set_option maxRecDepth 8000 in
/-- V45: a padded block and the length block, without a key. -/
theorem test_fdDigest : observe (fdDigestBody (t0 hX)) (loaded 0 (hex 17 0x101112131415161718191a1b1c1d1e1f20)) 16 =
    (0x80, 16, 0, hex 16 0xa3c222426282a2c2e30323436383a387) := by decide
/-- V69. -/
theorem test_fdDigest_length : observe (fdDigestBody (t0 hX)) { loaded 32 [] with len := 257 } 1 =
    (0x84, 0, 0, [0]) := by decide
set_option maxRecDepth 8000 in
/-- V70. -/
theorem test_envSeal : observe (envSealBody (t0 hX)) (loaded 32 (hex 20 0x7b226964223a372c226f6b223a747275657d2121)) 48 =
    (0x80, 48, 3, hex 48 0xa0a1a2a3a4a5a6a7a8a9aaabdb83cbc7869f918b8ac6c1893a747277c5dc83822366fb3bd4765496d9f1729a274e8e1f) := by
  decide
/-- V86: `BadLength` comes before `InvalidKey`. -/
theorem test_envSeal_priority : observe (envSealBody (t0 hX)) { loaded 5 [] with len := 229 } 1 =
    (0x84, 0, 0, [0]) := by decide
set_option maxRecDepth 8000 in
/-- V71. -/
theorem test_envOpen : observe (envOpenBody (t0 hX))
    (loaded 32 (hex 48 0xa0a1a2a3a4a5a6a7a8a9aaabdb83cbc7869f918b8ac6c1893a747277c5dc83822366fb3bd4765496d9f1729a274e8e1f)) 20 =
      (0x90, 20, 3, hex 20 0x7b226964223a372c226f6b223a747275657d2121) := by decide
set_option maxRecDepth 8000 in
/-- V73: a changed tag; nothing of the plaintext is left. -/
theorem test_envOpen_tag : observe (envOpenBody (t0 hX))
    (loaded 32 (hex 48 0xa0a1a2a3a4a5a6a7a8a9aaabdb83cbc7869f918b8ac6c1893a747277c5dc83822366fb3bd4765496d9f1729a274e8e9f)) 20 =
      (0x83, 0, 3, List.replicate 20 0) := by decide

/-! ### The checks of a host script refuse ill-formed lines -/

theorem test_wf_refuses_unmapped_write : (ScriptLine.wr 0x03 0).wf (t0 hX) = false := by decide
theorem test_wf_refuses_unmapped_read : (ScriptLine.rd 0xC0000000).wf (t0 hX) = false := by decide
theorem test_wf_refuses_write_beyond_buffer : (ScriptLine.wr 0x40000100 0).wf (t0 hX) = false := by decide
theorem test_wf_refuses_long_key : (ScriptLine.key (List.replicate 33 0)).wf (t0 hX) = false := by decide
theorem test_wf_refuses_wide_keylen : (ScriptLine.keylen 256).wf (t0 hX) = false := by decide
theorem test_wf_refuses_short_ctrblk : (ScriptLine.ctrblk (List.replicate 15 0)).wf (t0 hX) = false := by decide
theorem test_wf_refuses_long_nonce : (ScriptLine.nonce (List.replicate 13 0)).wf (t0 hX) = false := by decide
theorem test_wf_refuses_wide_len : (ScriptLine.len 4294967296).wf (t0 hX) = false := by decide
set_option maxRecDepth 8000 in
theorem test_wf_refuses_long_ibuf : (ScriptLine.ibuf (List.replicate 257 0)).wf (t0 hX) = false := by decide
set_option maxRecDepth 8000 in
theorem test_wf_refuses_long_in : (ScriptLine.input (List.replicate 257 0)).wf (t0 hX) = false := by decide
theorem test_wf_refuses_long_obuf : (ScriptLine.obuf 257).wf (t0 hX) = false := by decide
set_option maxRecDepth 8000 in
theorem test_wf_accepts_bounds :
    ([.wr 0x5F 255, .rd 0x800000FF, .cmd .clr, .key (List.replicate 32 0), .keylen 255, .ctrblk (List.replicate 16 0),
      .nonce (List.replicate 12 0), .len 4294967295, .ibuf (List.replicate 256 0), .input [], .status, .olen, .ecnt,
      .obuf 256] : List ScriptLine).all (·.wf (t0 hX)) = true := by decide

/-! ### Decoding, the words written out from the opcode map (30_encoding.md R91): UNIT, then OP -/

theorem test_decode_clr : decodeTableWord 8 0b0000_0001 = some .clr := by decide
theorem test_decode_ksGen : decodeTableWord 8 0b0001_0000 = some .ksGen := by decide
theorem test_decode_ksApply : decodeTableWord 8 0b0001_0001 = some .ksApply := by decide
theorem test_decode_gfMul : decodeTableWord 8 0b0010_0000 = some .gfMul := by decide
theorem test_decode_fdDigest : decodeTableWord 8 0b0010_0001 = some .fdDigest := by decide
theorem test_decode_envOpen : decodeTableWord 8 0b0011_0000 = some .envOpen := by decide
theorem test_decode_envSeal : decodeTableWord 8 0b0011_0001 = some .envSeal := by decide
/-- V61, V62: 0x00 and 0x32 are reserved; so is the first unit without a command. -/
theorem test_decode_reserved : decodeTableWord 8 0x00 = none ∧ decodeTableWord 8 0x32 = none ∧
    decodeTableWord 8 0x40 = none ∧ decode [] = .error .noByte := by
  refine ⟨by decide, by decide, by decide, rfl⟩
/-- No two rows of the opcode map have the same code. -/
theorem test_opcode_map_disjoint :
    opcodeMap.Pairwise fun r q => ¬ (r.unit = q.unit ∧ r.op = q.op) := by decide

/-! ### The machine right after reset (V92 to V96) and the host port (V97 to V99) -/

/-- STATUS after the next step, all ones if there is none. -/
def statusAfterStep (s : State) : Byte :=
  match step s with
  | .next t => t.status
  | .fault _ => 0xff
  | .refused _ => 0xff

theorem test_reset_ksGen : statusAfterStep (State.reset.withFetchWord 8 0x10) = 0x81 := by decide
theorem test_reset_fdDigest : statusAfterStep (State.reset.withFetchWord 8 0x21) = 0x80 := by decide
theorem test_reset_envOpen : statusAfterStep (State.reset.withFetchWord 8 0x30) = 0x82 := by decide
theorem test_reset_envSeal : statusAfterStep (State.reset.withFetchWord 8 0x31) = 0x81 := by decide
theorem test_reset_reserved : statusAfterStep (State.reset.withFetchWord 8 0x32) = 0x85 := by decide

/-- V100: `CLR`, then `KS.GEN` has no key. -/
theorem test_clr :
    (match execClr (loaded 32 [1, 2, 3]) with
      | .next t => (t.status, t.keylen, t.len, Memory.read t.ibuf 0, t.nonce[0], t.ctrblk[15])
      | _ => (0, 1, 1, 1, 1, 1)) = (0x80, 0, 0, 0, 0, 0) := by decide

/-- The value of LEN after some steps, zero if a step stops. -/
def lenAfter (n : Nat) (s : State) : Nat :=
  match core.run n s with
  | .next t => t.len.toNat
  | _ => 0

/-- V99: the bytes of LEN are written in any order. -/
theorem test_len_bytes : lenAfter 2 { State.reset with script := [.hwr 0x07 0x11, .hwr 0x06 0x01] } = 273 := by
  decide

/-- V97, V98: write-only locations read as zero, read-only ones ignore a write. -/
theorem test_write_only_and_read_only :
    (State.readLocation { State.reset with key := Vector.replicate 32 0xff } (.key 0)) = 0 ∧
      State.writeLocation State.reset 0xff .status = State.reset ∧
      State.writeLocation State.reset 0xff (.olen 0) = State.reset ∧
      State.writeLocation State.reset 0xff (.obuf 0) = State.reset := by decide

/-! ### Witnesses: states and operands that meet the hypotheses of the statements

`Config.chosen` is opaque, so a bound such as `BUF_SIZE` stands in them as itself. -/

/-- StepRunsTheCommandWritten, for the first and the last code. -/
theorem witness_command_written :
    ({ State.reset with script := [.hwr 0 0x01] } : State).script = .hwr 0 0x01 :: [] ∧
      decode [0x01] = .ok (.clr, []) ∧ decode [0x31] = .ok (.envSeal, []) := ⟨rfl, rfl, rfl⟩

/-- DecodeInvertsEncode. -/
theorem witness_decode : Instr.wf .envSeal = true ∧ decode [0x31, 0x55] = .ok (.envSeal, [0x55]) := ⟨rfl, rfl⟩

/-- CommandCodesDecode, ReservedCodeFailsWithBadCommand, FirstErrorInPriorityOrder (its first clause) and
HostWriteStoresOnlyTheAddressedByte (its second clause): reserved codes next to each unit's codes. -/
theorem witness_reserved_codes : ∀ c ∈ ([0x00, 0x02, 0x0f, 0x12, 0x1f, 0x22, 0x2f, 0x32, 0x40, 0xff] : List Byte),
    c ∉ ([0x01, 0x10, 0x11, 0x20, 0x21, 0x30, 0x31] : List Byte) ∧
      ∀ i ∈ [Instr.clr, .ksGen, .ksApply, .gfMul, .fdDigest, .envOpen, .envSeal], encodeByte i ≠ c := by decide

theorem witness_reserved_code : ∀ i, encodeByte i ≠ 0x00 := by
  intro i
  cases i <;> decide

/-- HostReadReturnsTheAddressedByte, HostWriteStoresOnlyTheAddressedByte: the first and the last offset of
a buffer. -/
theorem witness_buffer_offsets :
    0 < Config.chosen.bufSize ∧ Config.chosen.bufSize - 1 < Config.chosen.bufSize := by
  have := Config.chosen.le_bufSize
  omega

/-- UnmappedAccessIsRefused, and the last clauses of the two host statements: each range at both ends. -/
theorem witness_unmapped :
    (∀ a ∈ ([0x03, 0x2C, 0x3F, 0x60, 0x3FFFFFFF, 0x7FFFFFFF, 0xBFFFFFFF, 0xC0000000, 0xFFFFFFFF] : List Addr),
      Unmapped Config.chosen a) ∧
    Unmapped Config.chosen (BitVec.ofNat 32 (0x40000000 + Config.chosen.bufSize)) ∧
    Unmapped Config.chosen (BitVec.ofNat 32 (0x80000000 + Config.chosen.bufSize)) := by
  have h := Config.chosen.bufSize_le
  have h' := Config.chosen.le_bufSize
  generalize Config.chosen = c at *
  refine ⟨?_, ?_, ?_⟩
  · intro a ha
    simp only [List.mem_cons, List.not_mem_nil, or_false] at ha
    rcases ha with rfl | rfl | rfl | rfl | rfl | rfl | rfl | rfl | rfl <;> simp [Unmapped] <;> omega
  · simp only [Unmapped, BitVec.toNat_ofNat]; omega
  · simp only [Unmapped, BitVec.toNat_ofNat]; omega

/-- OperandWritesKeepResults, MappedScriptRunsToItsEnd: mapped addresses at the ends of their ranges. -/
theorem witness_mapped :
    (∀ a ∈ ([0x00, 0x02, 0x04, 0x2B, 0x40, 0x5F, 0x40000000, 0x8000002B] : List Addr),
      ¬ Unmapped Config.chosen a ∧ (HostEvent.hwr a 1).mapped Config.chosen = true) ∧ (0x02 : Addr) ≠ 0 := by
  have h' := Config.chosen.le_bufSize
  generalize Config.chosen = c at *
  refine ⟨?_, by decide⟩
  intro a ha
  have key : ¬ Unmapped c a := by
    simp only [List.mem_cons, List.not_mem_nil, or_false] at ha
    rcases ha with rfl | rfl | rfl | rfl | rfl | rfl | rfl | rfl <;> simp [Unmapped] <;> omega
  refine ⟨key, ?_⟩
  simp only [HostEvent.mapped, Option.isSome_iff_ne_none]
  exact fun h => key ((locate_eq_none c a).mp h)

/-- LenBytesInAnyOrder: the last byte first. -/
theorem witness_len_order : ([.hwr 0x07 4, .hwr 0x06 3, .hwr 0x05 2, .hwr 0x04 1] : List HostEvent).Perm
    [.hwr 0x04 1, .hwr 0x05 2, .hwr 0x06 3, .hwr 0x07 4] := by decide

/-- KeyLineLoadsTheKey, InLineLoadsTheInput, RegisterLinesLoadTheirRegister, ReadLinesReturnTheResults:
the least and the greatest lengths and numbers, on a state whose IBUF is in canonical form. -/
theorem witness_lines :
    ([] : List Byte).length ≤ 32 ∧ (List.replicate 32 (0xff : Byte)).length ≤ 32 ∧ Memory.wf State.reset.ibuf ∧
      ([] : List Byte).length ≤ Config.chosen.bufSize ∧
      (List.replicate Config.chosen.bufSize (0xff : Byte)).length ≤ Config.chosen.bufSize ∧
      4294967295 < 2 ^ 32 ∧ 255 < 2 ^ 8 ∧ 0 ≤ Config.chosen.bufSize := by
  refine ⟨by decide, by decide, by decide, by simp, by simp, by decide, by decide, by simp⟩

/-- ResetEventRestoresTheResetState, on a state with results. -/
theorem witness_reset_event : ({ State.reset with done := true, olen := 1, script := [.reset] } : State).script =
    .reset :: [] := rfl

/-- A state with the given KEYLEN and LEN. -/
def sized (keylen : Byte) (len : Nat) : State := { State.reset with keylen := keylen, len := BitVec.ofNat 32 len }

theorem keySizeOk_32 (c : Config) : c.keySizeOk (32 : Byte).toNat = true := by simp [Config.keySizeOk]
theorem keySizeOk_0 (c : Config) : c.keySizeOk (0 : Byte).toNat = false := by simp [Config.keySizeOk]
theorem keySizeOk_33 (c : Config) : c.keySizeOk (33 : Byte).toNat = false := by simp [Config.keySizeOk]

theorem sized_len (k : Byte) {n : Nat} (h : n < 2 ^ 32) : (sized k n).len.toNat = n := by
  simpa [sized] using Nat.mod_eq_of_lt h

/-- KsGenOutcome, KsApplyOutcome, FdDigestOutcome: each clause, at LEN 0, `BUF_SIZE` and `BUF_SIZE + 1`,
with the key lengths 32, 0 and 33. -/
theorem witness_keystream :
    let b := Config.chosen.bufSize
    ((sized 32 0).len.toNat ≤ b ∧ Config.chosen.keySizeOk (sized 32 0).keylen.toNat = true) ∧
    ((sized 32 b).len.toNat ≤ b ∧ Config.chosen.keySizeOk (sized 32 b).keylen.toNat = true) ∧
    b < (sized 32 (b + 1)).len.toNat ∧ b < (sized 32 4294967295).len.toNat ∧
    ((sized 0 b).len.toNat ≤ b ∧ Config.chosen.keySizeOk (sized 0 b).keylen.toNat = false) ∧
    ((sized 33 0).len.toNat ≤ b ∧ Config.chosen.keySizeOk (sized 33 0).keylen.toNat = false) := by
  have h := Config.chosen.bufSize_le
  intro b
  rw [sized_len 32 (by omega), sized_len 32 (by omega), sized_len 32 (by omega), sized_len 32 (by omega),
    sized_len 0 (by omega), sized_len 33 (by omega)]
  exact ⟨⟨by omega, keySizeOk_32 _⟩, ⟨by omega, keySizeOk_32 _⟩, by omega, by omega, ⟨by omega, keySizeOk_0 _⟩,
    by omega, keySizeOk_33 _⟩

/-- EnvOpenOutcome, its last three clauses, at LEN 27, 28, `BUF_SIZE` and `BUF_SIZE + 1`; the first two are
`witness_open_succeeds` and `witness_open_fails`. -/
theorem witness_open_lengths :
    let b := Config.chosen.bufSize
    b < (sized 32 (b + 1)).len.toNat ∧ (sized 32 27).len.toNat < 28 ∧ (sized 0 0).len.toNat < 28 ∧
    (28 ≤ (sized 0 28).len.toNat ∧ (sized 0 28).len.toNat ≤ b ∧
      Config.chosen.keySizeOk (sized 0 28).keylen.toNat = false) ∧
    (28 ≤ (sized 33 b).len.toNat ∧ (sized 33 b).len.toNat ≤ b ∧
      Config.chosen.keySizeOk (sized 33 b).keylen.toNat = false) := by
  have h := Config.chosen.bufSize_le
  have h' := Config.chosen.le_bufSize
  intro b
  rw [sized_len 32 (by omega), sized_len 32 (by omega), sized_len 0 (by omega), sized_len 0 (by omega),
    sized_len 33 (by omega)]
  exact ⟨by omega, by omega, by omega, ⟨by omega, by omega, keySizeOk_0 _⟩, by omega, by omega, keySizeOk_33 _⟩

/-- EnvSealOutcome, SealThenOpenRestoresPlaintext: each clause, at LEN 0, `BUF_SIZE - 28` and one more. -/
theorem witness_seal :
    let b := Config.chosen.bufSize
    ((sized 32 0).len.toNat + 28 ≤ b ∧ Config.chosen.keySizeOk (sized 32 0).keylen.toNat = true) ∧
    ((sized 32 (b - 28)).len.toNat ≤ b - 28 ∧ (sized 32 (b - 28)).len.toNat + 28 ≤ b) ∧
    b - 28 < (sized 32 (b - 27)).len.toNat ∧
    ((sized 0 (b - 28)).len.toNat ≤ b - 28 ∧ Config.chosen.keySizeOk (sized 0 (b - 28)).keylen.toNat = false) := by
  have h := Config.chosen.bufSize_le
  have h' := Config.chosen.le_bufSize
  intro b
  rw [sized_len 32 (by omega), sized_len 32 (by omega), sized_len 32 (by omega), sized_len 0 (by omega)]
  exact ⟨⟨by omega, keySizeOk_32 _⟩, ⟨by omega, by omega⟩, by omega, by omega, keySizeOk_0 _⟩

/-- SealThenOpenRestoresPlaintext, the state `u` of its conclusion: the sealed envelope copied to IBUF. -/
theorem witness_copy (s t : State) :
    let u : State := { s with ibuf := t.obuf, len := t.olen }
    SameKey s u ∧ u.len = t.olen ∧ ∀ a < t.olen.toNat, Memory.read u.ibuf a = Memory.read t.obuf a :=
  ⟨⟨rfl, rfl⟩, rfl, fun _ _ => rfl⟩

/-- FirstErrorInPriorityOrder, its second clause, for each error that is found early and each command that
can report it, and its third. -/
theorem witness_early_errors :
    let b := Config.chosen.bufSize
    let early := earlyError Config.chosen
    (∀ i ∈ [Instr.ksGen, .ksApply, .fdDigest, .envOpen, .envSeal],
      early (sized 0 (b + 1)) i = some .badLength) ∧
    early (sized 0 27) .envOpen = some .invalidEnvelope ∧
    (∀ i ∈ [Instr.ksGen, .ksApply, .envOpen], early (sized 0 28) i = some .invalidKey) ∧
    early (sized 0 0) .envSeal = some .invalidKey ∧
    early (sized 32 28) .envOpen = none ∧ early (sized 32 (b + 1)) .gfMul = none := by
  have h := Config.chosen.bufSize_le
  have h' := Config.chosen.le_bufSize
  intro b early
  have e1 : (sized 0 (b + 1)).len.toNat = b + 1 := sized_len 0 (by omega)
  have e2 : (sized 0 28).len.toNat = 28 := sized_len 0 (by omega)
  have e3 : (sized 0 27).len.toNat = 27 := sized_len 0 (by omega)
  have e4 : (sized 32 28).len.toNat = 28 := sized_len 32 (by omega)
  have e5 : (sized 0 0).len.toNat = 0 := sized_len 0 (by omega)
  have k0 : ∀ n, Config.chosen.keySizeOk (sized 0 n).keylen.toNat = false := fun n => keySizeOk_0 _
  have k32 : ∀ n, Config.chosen.keySizeOk (sized 32 n).keylen.toNat = true := fun n => keySizeOk_32 _
  refine ⟨?_, ?_, ?_, ?_, ?_, rfl⟩
  · intro i hi
    simp only [List.mem_cons, List.not_mem_nil, or_false] at hi
    rcases hi with rfl | rfl | rfl | rfl | rfl <;> simp only [early, earlyError, e1] <;> exact if_pos (by omega)
  · simp only [early, earlyError, e3]
    rw [if_neg (by omega), if_pos (by omega)]
  · intro i hi
    simp only [List.mem_cons, List.not_mem_nil, or_false] at hi
    rcases hi with rfl | rfl | rfl <;> simp only [early, earlyError, e2, k0]
    · rw [if_neg (by omega)]; rfl
    · rw [if_neg (by omega)]; rfl
    · rw [if_neg (by omega), if_neg (by omega)]; rfl
  · simp only [early, earlyError, e5, k0]
    rw [if_neg (by omega)]; rfl
  · simp only [early, earlyError, e4, k32]
    rw [if_neg (by omega), if_neg (by omega)]; rfl

/-- OnlyClrChangesOperands: a command other than `CLR`, and one that ends with an error. -/
theorem witness_not_clr : Instr.ksGen ≠ .clr ∧
    ∃ t, exec .envOpen State.reset = .next t ∧ t.err ≠ 0 := by
  refine ⟨by decide, _, rfl, ?_⟩
  rw [envOpenBody, if_neg (by simp [State.reset]), if_pos (by simp [State.reset])]
  simp only [BodyResult.finish, State.failExit_err]
  decide

/-- ResultsDependOnListedReadsOnly: for each command two states that differ outside its reads and agree on
them. -/
theorem witness_agree (s : State) :
    AgreeOnReads s { s with len := s.len + 1, key := Vector.replicate 32 7 } .clr ∧
      AgreeOnReads s { s with nonce := Vector.replicate 12 7, ibuf := [(0, 7)] } .ksGen ∧
      AgreeOnReads s { s with nonce := Vector.replicate 12 7, err := 5 } .ksApply ∧
      AgreeOnReads s { s with len := 7, keylen := 7 } .gfMul ∧
      AgreeOnReads s { s with key := Vector.replicate 32 7, keylen := 7 } .fdDigest ∧
      AgreeOnReads s { s with nonce := Vector.replicate 12 7, ctrblk := Vector.replicate 16 7 } .envOpen ∧
      AgreeOnReads s { s with ctrblk := Vector.replicate 16 7, obuf := [(0, 7)] } .envSeal :=
  ⟨trivial, ⟨⟨rfl, rfl⟩, rfl, rfl⟩, ⟨⟨rfl, rfl⟩, rfl, rfl, fun _ _ => rfl⟩, fun _ _ => rfl,
    ⟨rfl, fun _ _ => rfl⟩, ⟨⟨rfl, rfl⟩, rfl, fun _ _ => rfl⟩, ⟨rfl, rfl⟩, rfl, rfl, fun _ _ => rfl⟩

/-! ### Witnesses for `ENV.OPEN`: an envelope with an empty payload -/

/-- The all-zero key and nonce. -/
def key0 : List Byte := List.replicate 32 0
def nonce0 : List Byte := List.replicate 12 0

/-- The tag of the empty ciphertext under the key and nonce. -/
def tag0 : List Byte := (tagUnit Config.chosen key0 nonce0 [] Work.zero).out

/-- A wrong tag. -/
def badTag : List Byte := tag0.map (· ^^^ 1)

theorem length_tag0 : tag0.length = 16 := by
  simp only [tag0, tagUnit, keystreamUnit, Block.length_bytes]
  rw [if_neg (by decide)]
  exact (keystreamLoop_spec _ _ _ _ _ (by simp) (by simp [ceil16])).1.trans (by simp)

theorem length_badTag : badTag.length = 16 := by simp [badTag, length_tag0]

theorem badTag_ne : badTag ≠ tag0 := by
  intro h
  have h0 : 0 < tag0.length := by simp [length_tag0]
  have := congrArg (fun l : List Byte => l[0]?) h
  simp only [badTag, List.getElem?_map, List.getElem?_eq_getElem h0, Option.map_some, Option.some.injEq] at this
  generalize tag0[0] = b at this
  revert b
  decide

/-- KEYLEN 32, LEN 28 and the envelope of the all-zero nonce with the given tag in IBUF. -/
def envelopeState (tag : List Byte) : State :=
  { sized 32 28 with ibuf := Memory.writeBytes Memory.zero 0 (nonce0 ++ tag) }

theorem envelopeState_env {tag : List Byte} (h : tag.length = 16) :
    Memory.readBytes (envelopeState tag).ibuf 0 28 = nonce0 ++ tag := by
  have := Memory.readBytes_writeBytes Memory.wf_zero 0 (nonce0 ++ tag)
  rwa [List.length_append, h, nonce0, List.length_replicate] at this

theorem envelopeState_open {tag : List Byte} (h : tag.length = 16) :
    openUnit Config.chosen key0 (nonce0 ++ tag) Work.zero =
      ⟨[], tag0 = tag, 0 + (tagUnit Config.chosen key0 nonce0 [] Work.zero).cnt,
        (tagUnit Config.chosen key0 nonce0 [] Work.zero).work⟩ := by
  have hs : split (nonce0 ++ tag) = ⟨nonce0, [], tag⟩ := by
    simp only [split, slice, nonce0, List.length_append, List.length_replicate, h]
    exact congrArg (Envelope.mk _ _) (List.take_of_length_le (by simp [h]))
  simp only [openUnit, hs, keystreamUnit, List.length_nil, if_true]
  rfl

theorem envelopeState_key (tag : List Byte) :
    (envelopeState tag).key.toList.take (envelopeState tag).keylen.toNat = key0 := by
  simp [envelopeState, sized, State.reset, key0]

/-- EnvOpenOutcome, its first clause, at LEN 28. -/
theorem witness_open_succeeds :
    let s := envelopeState tag0
    28 ≤ s.len.toNat ∧ s.len.toNat ≤ Config.chosen.bufSize ∧ Config.chosen.keySizeOk s.keylen.toNat = true ∧
      openEnvelope Config.chosen (s.key.toList.take s.keylen.toNat) (Memory.readBytes s.ibuf 0 s.len.toNat) =
        some [] := by
  have h' := Config.chosen.le_bufSize
  refine ⟨by decide, ?_, keySizeOk_32 _, ?_⟩
  · exact (show (28 : Nat) ≤ _ by omega)
  · rw [envelopeState_key, show (envelopeState tag0).len.toNat = 28 from rfl, envelopeState_env length_tag0, openEnvelope,
      envelopeState_open length_tag0]
    simp

/-- EnvOpenOutcome, its second clause, at LEN 28. -/
theorem witness_open_fails :
    let s := envelopeState badTag
    28 ≤ s.len.toNat ∧ s.len.toNat ≤ Config.chosen.bufSize ∧ Config.chosen.keySizeOk s.keylen.toNat = true ∧
      openEnvelope Config.chosen (s.key.toList.take s.keylen.toNat) (Memory.readBytes s.ibuf 0 s.len.toNat) =
        none := by
  have h' := Config.chosen.le_bufSize
  refine ⟨by decide, ?_, keySizeOk_32 _, ?_⟩
  · exact (show (28 : Nat) ≤ _ by omega)
  · rw [envelopeState_key, show (envelopeState badTag).len.toNat = 28 from rfl, envelopeState_env length_badTag, openEnvelope,
      envelopeState_open length_badTag]
    simp [badTag_ne.symm]

/-- `ENV.OPEN` on those states. -/
theorem envelopeState_exec {tag : List Byte} (h : tag.length = 16) :
    ∃ t, exec .envOpen (envelopeState tag) = .next t ∧
      (tag0 = tag → t.auth = true) ∧ (tag0 ≠ tag → t.err = CmdError.authenticationFailure.code) := by
  have h' := Config.chosen.le_bufSize
  refine ⟨_, rfl, ?_, ?_⟩
  all_goals
    intro ht
    have hin : (envelopeState tag).prologue.input = nonce0 ++ tag := envelopeState_env h
    rw [envOpenBody, if_neg (by simp [envelopeState, sized]; omega), if_neg (by simp [envelopeState, sized]),
      keyOf_eq_some (keySizeOk_32 _)]
    simp only [State.prologue_key, State.prologue_keylen, envelopeState_key, hin, State.prologue_work,
      envelopeState_open h, ht, decide_true, decide_false, if_true]
    rfl

/-- FailedOpenRevealsNothing: two failing opens of one length. -/
theorem witness_failed_opens : (envelopeState badTag).len = (envelopeState badTag).len ∧
    ∃ t, exec .envOpen (envelopeState badTag) = .next t ∧ t.err = CmdError.authenticationFailure.code := by
  obtain ⟨t, h1, -, h3⟩ := envelopeState_exec length_badTag
  exact ⟨rfl, t, h1, h3 badTag_ne.symm⟩

/-- TagChangeAlwaysDetected: an envelope that opens, and the same with another tag. -/
theorem witness_tag_change : (∃ t, exec .envOpen (envelopeState tag0) = .next t ∧ t.auth = true) ∧
    SameKey (envelopeState tag0) (envelopeState badTag) ∧ (envelopeState badTag).len = (envelopeState tag0).len ∧
    (∀ a < (envelopeState tag0).len.toNat - 16,
      Memory.read (envelopeState badTag).ibuf a = Memory.read (envelopeState tag0).ibuf a) ∧
    ∃ a, (envelopeState tag0).len.toNat - 16 ≤ a ∧ a < (envelopeState tag0).len.toNat ∧
      Memory.read (envelopeState badTag).ibuf a ≠ Memory.read (envelopeState tag0).ibuf a := by
  have hl : (envelopeState tag0).len.toNat = 28 := by simp [envelopeState, sized]
  have hr : ∀ tag : List Byte, ∀ a, a < (nonce0 ++ tag).length →
      Memory.read (envelopeState tag).ibuf a = (nonce0 ++ tag).getD a 0 := by
    intro tag a ha
    simp only [envelopeState]
    rw [Memory.read_writeBytes Memory.wf_zero]
    simp only [Nat.zero_le, Nat.zero_add, true_and, Nat.sub_zero]
    rw [if_pos ha]
  have hn : nonce0.length = 12 := by simp [nonce0]
  rw [hl]
  refine ⟨?_, ⟨by simp [envelopeState], by simp [envelopeState]⟩, by simp [envelopeState], ?_, 12, by decide, by decide, ?_⟩
  · obtain ⟨t, h1, h2, -⟩ := envelopeState_exec length_tag0
    exact ⟨t, h1, h2 rfl⟩
  · intro a ha
    rw [hr _ a (by simp [hn, length_badTag]; omega), hr _ a (by simp [hn, length_tag0]; omega)]
    simp [List.getD_eq_getElem?_getD, List.getElem?_append_left (show a < nonce0.length by omega)]
  · rw [hr _ 12 (by simp [hn, length_badTag]), hr _ 12 (by simp [hn, length_tag0])]
    have h0 : 0 < tag0.length := by simp [length_tag0]
    simp only [List.getD_eq_getElem?_getD, List.getElem?_append_right (show nonce0.length ≤ 12 by omega), hn,
      Nat.sub_self, badTag, List.getElem?_map, List.getElem?_eq_getElem h0, Option.map_some, Option.getD_some]
    generalize tag0[0] = b
    revert b
    decide

/-! ### Witnesses for the statements about functions -/

/-- IncrementWrapKeepsNonce, CounterBlockLayout, SealedEnvelopeLayout, OpenInvertsSeal: a nonce of 12
bytes. -/
theorem witness_nonce : n12.length = 12 := by decide

/-- EnvelopeCountersNeverCollide: the least and the greatest number of blocks. -/
theorem witness_counters : n12.length = 12 ∧ 0 ≤ 2 ^ 24 ∧ 2 ^ 24 ≤ 2 ^ 24 ∧ 0 < 2 ^ 24 := by decide

/-- KeystreamByteFormula, ShiftStepByBytes, BlocksPadTheLastOne, LenBlockEncodesTheBitLength: indexes at the
ends of their ranges, for 17 bytes of data. -/
theorem witness_indexes : 16 < (hex 17 1).length ∧ 1 < (blocks (hex 17 1)).length ∧ 1 ≤ 1 ∧ 15 < 16 ∧
    536870911 < 2 ^ 29 := by decide

/-- OpenComparesTheExpectedTag: the shortest envelope. -/
theorem witness_shortest_envelope : 28 ≤ (List.replicate 28 (0 : Byte)).length := by decide

theorem shiftStep_one {k : Nat} (hk : k < 127) : shiftStep (1#128 <<< (127 - k)) = 1#128 <<< (127 - (k + 1)) := by
  apply BitVec.eq_of_getLsbD_eq
  intro i hi
  have h0 : (1#128 <<< (127 - k)).getLsbD 0 = false := by simp; omega
  simp only [shiftStep, h0, BitVec.getLsbD_xor, BitVec.getLsbD_ushiftRight, BitVec.getLsbD_shiftLeft]
  simp [BitVec.getLsbD_one]
  rw [Bool.eq_iff_iff]
  simp
  omega

theorem getMsbD_one {n k : Nat} (hn : n < 128) (hk : k < 128) :
    (1#128 <<< (127 - n)).getMsbD k = decide (k = n) := by
  simp [BitVec.getMsbD, BitVec.getLsbD_shiftLeft, BitVec.getLsbD_one, hk]
  rw [Bool.eq_iff_iff]
  simp
  omega

/-- The first `n` steps of a multiply by one copy the first `n` bits of the scanned operand. -/
theorem mul_one_steps (a : Block) (n : Nat) (hn : n ≤ 128) :
    let w := (List.range n).foldl
      (fun (w : Work) k => { w with z := if a.getMsbD k then w.z ^^^ w.v else w.z, v := shiftStep w.v })
      { Work.zero with z := 0, v := 1#128 <<< 127 }
    (∀ k < 128, w.z.getMsbD k = (decide (k < n) && a.getMsbD k)) ∧ (n < 128 → w.v = 1#128 <<< (127 - n)) := by
  induction n with
  | zero => exact ⟨fun k _ => by simp, fun _ => rfl⟩
  | succ n ih =>
    obtain ⟨h1, h2⟩ := ih (by omega)
    simp only [List.range_succ, List.foldl_append, List.foldl_cons, List.foldl_nil]
    refine ⟨fun k hk => ?_, fun h => ?_⟩
    · rw [h2 (by omega)]
      have h3 := h1 k hk
      split_ifs with ha
      · rw [BitVec.getMsbD_xor, h3, getMsbD_one (by omega) hk]
        by_cases hkn : k = n
        · subst hkn; simp [ha]
        · simp [hkn, show k < n + 1 ↔ k < n by omega]
      · rw [h3]
        by_cases hkn : k = n
        · subst hkn; simp [ha]
        · simp [show k < n + 1 ↔ k < n by omega]
    · rw [h2 (by omega), shiftStep_one (by omega)]

theorem eq_zero_of_gfMul_one {x : Block} (h : gfMul x hOne = 0) : x = 0 := by
  rw [gfMul, mulUnit_flat] at h
  apply BitVec.eq_of_getMsbD_eq
  intro i hi
  have := (mul_one_steps x 128 (by omega)).1 i hi
  rw [show (1#128 <<< 127) = hOne from rfl, h] at this
  simpa [hi] using this.symm

set_option maxRecDepth 8000 in
/-- CiphertextChangeDetected: under the subkey one, an envelope of one payload byte and the same with that
byte changed. -/
theorem witness_ciphertext_change :
    (∀ x, gfMul x (t0 hOne).fixedSubkey = 0 → x = 0) ∧
    (let env := n12 ++ [0xdb] ++ hex 16 0x7ba1a2a3a4a5a6a7a8a9aaab00000009
     let env' := n12 ++ [0xda] ++ hex 16 0x7ba1a2a3a4a5a6a7a8a9aaab00000009
     28 ≤ env.length ∧ env'.length = env.length ∧
      (∀ i < 29, i < 12 ∨ env.length - 16 ≤ i → env'[i]? = env[i]?) ∧
      (∀ i < 29, (i - 12) / 16 ≠ 0 → env'[i]? = env[i]?) ∧ env' ≠ env ∧
      (openEnvelope (t0 hOne) [] env).isSome = true) := by
  refine ⟨fun _ => eq_zero_of_gfMul_one, ?_⟩
  intro env env'
  refine ⟨by decide, by decide, by decide, by decide, by decide, by decide⟩

/-! ### Witnesses for the whole-machine rules -/

/-- InvariantKeptByEveryStep, StatusReadsLegalValuesOnly: a state with results that meets the invariant and
has a next state. -/
theorem witness_invariant :
    let s : State := { State.reset with
      done := true
      auth := true
      olen := 2
      ecnt := 3
      ibuf := [(1, 7), (43, 1)]
      obuf := [(1, 5)]
      script := [.hrd 1] }
    Inv Config.chosen s ∧ ∃ t, step s = .next t := by
  have h' := Config.chosen.le_bufSize
  refine ⟨?_, _, rfl⟩
  constructor
  case workZero => rfl
  case ibufWf => decide
  case obufWf => decide
  case olenSize => exact (show (2 : Nat) ≤ _ by omega)
  case ibufSize =>
    intro cell hc
    simp only [List.mem_cons, List.not_mem_nil, or_false] at hc
    rcases hc with rfl | rfl <;> simp only <;> omega
  all_goals simp [State.reset]

theorem step_open (s : State) : step (s.withCommandByte 0x30) = exec .envOpen s := by
  rw [step_of_script (State.withCommandByte_script s 0x30)]
  rfl

/-- DoneAndAuthChangeOnlyByRule: a step that clears DONE, and one that sets AUTH. -/
theorem witness_done_and_auth :
    (∃ t, step { State.reset with done := true, script := [.reset] } = .next t ∧ t.done = false) ∧
    ∃ t, step ((envelopeState tag0).withCommandByte 0x30) = .next t ∧ t.auth = true := by
  refine ⟨⟨_, rfl, rfl⟩, ?_⟩
  obtain ⟨t, h1, h2, -⟩ := envelopeState_exec length_tag0
  exact ⟨t, (step_open _).trans h1, h2 rfl⟩

/-- HostNeverReadsTheKey: a script that uses the key in no command; a run that goes on, and one that is
refused. -/
theorem witness_key_unused :
    (∀ e ∈ ([.hrd 0x40, .hwr 0x40 1, .hwr 0 0x01, .hwr 0 0x20, .hwr 0 0x21, .reset] : List HostEvent),
      e.usesKey = false) ∧
    (∃ t : State, core.run 1 { State.reset with script := [.hrd 0x40] } = .next t) ∧
    core.run 1 { State.reset with script := [.hrd 0x03] } = .refused (Refusal.unmappedRead 0x03) := by
  refine ⟨by decide, ⟨_, (run_of_next (step_read (l := .key 0) rfl)).trans (run_zero _)⟩, run_of_refused rfl⟩

end Sys2Proof.Tests
end

section
/-! The invariant of the machine, the rules of DONE and AUTH, and the independence of KEY, from one
account of what a step can do. -/

/-! ### The units: how much they put out and how often they evaluate the cipher -/

namespace Sys2Proof.Machine

@[simp] theorem length_keystreamUnit (c : Config) (key : List Byte) (cb : Block) (data : List Byte)
    (w : Work) : (keystreamUnit c key cb data w).out.length = data.length := by
  rw [keystreamUnit]
  split_ifs with h
  · exact h.symm
  · exact (keystreamLoop_spec c key _ data _ (by omega) (by simp only [ceil16]; omega)).1

@[simp] theorem cnt_keystreamUnit (c : Config) (key : List Byte) (cb : Block) (data : List Byte)
    (w : Work) : (keystreamUnit c key cb data w).cnt = ceil16 data.length := by
  rw [keystreamUnit]
  split_ifs with h
  · rw [h]; rfl
  · exact (keystreamLoop_spec c key _ data _ (by omega) (by simp only [ceil16]; omega)).2.1

@[simp] theorem length_tagUnit (c : Config) (key nonce ct : List Byte) (w : Work) :
    (tagUnit c key nonce ct w).out.length = 16 := by simp [tagUnit]

@[simp] theorem cnt_tagUnit (c : Config) (key nonce ct : List Byte) (w : Work) :
    (tagUnit c key nonce ct w).cnt = 1 := by simp [tagUnit, ceil16]

@[simp] theorem length_split_ct (env : List Byte) : (split env).ct.length = env.length - 28 := by
  simp only [split, length_slice]
  omega

@[simp] theorem length_openUnit (c : Config) (key env : List Byte) (w : Work) :
    (openUnit c key env w).pt.length = env.length - 28 := by simp [openUnit]

@[simp] theorem cnt_openUnit (c : Config) (key env : List Byte) (w : Work) :
    (openUnit c key env w).cnt = ceil16 (env.length - 28) + 1 := by simp [openUnit]

@[simp] theorem length_sealUnit (c : Config) (key nonce pt : List Byte) (w : Work) :
    (sealUnit c key nonce pt w).out.length = nonce.length + pt.length + 16 := by
  simp [sealUnit, Nat.add_assoc]

@[simp] theorem cnt_sealUnit (c : Config) (key nonce pt : List Byte) (w : Work) :
    (sealUnit c key nonce pt w).cnt = ceil16 pt.length + 1 := by simp [sealUnit]

@[simp] theorem length_input (s : State) : s.input.length = s.len.toNat := by simp [State.input]

/-! ### The bodies of the commands -/

/-- The body of each command. -/
def commandBody (c : Config) : Instr → State → BodyResult
  | .clr => clrBody
  | .ksGen => ksGenBody c
  | .ksApply => ksApplyBody c
  | .gfMul => gfMulBody
  | .fdDigest => fdDigestBody c
  | .envOpen => envOpenBody c
  | .envSeal => envSealBody c

theorem exec_eq_runCommand (i : Instr) (s : State) :
    exec i s = runCommand (commandBody Config.chosen i) s := by
  cases i <;> rfl

/-- What a write of byte `v` to CMD can ask of the exits after the prologue left `s`: a failure or an
output, each within its bounds and with no operand changed, or the zeroing of `CLR`. Only the code of
`ENV.OPEN` asks for AUTH. -/
inductive BodyCase (c : Config) (v : Byte) (s : State) : BodyResult → Prop
  | fail (e : CmdError) (cnt : Nat) (w : Work) (hcnt : cnt ≤ 2 ^ 24 + 1) :
      BodyCase c v s (.fail e cnt (s.setWork w))
  | done (out : List Byte) (cnt : Nat) (auth : Bool) (w : Work) (hout : out.length ≤ c.bufSize)
      (hcnt : cnt ≤ 2 ^ 24 + 1) (hauth : auth = true → v = 0x30) :
      BodyCase c v s (.done out cnt auth (s.setWork w))
  | clr : BodyCase c v s (clrBody s)

/-- A failure before any unit has run. -/
theorem BodyCase.failEarly {c : Config} {v : Byte} {s : State} (e : CmdError) :
    BodyCase c v s (.fail e 0 s) :=
  .fail e 0 s.work (Nat.zero_le _)

/-- The evaluations of a keystream that fits a buffer (10_state.md R27). -/
theorem ceil16_le_of_le_bufSize {c : Config} {n : Nat} (h : n ≤ c.bufSize) : ceil16 n ≤ 2 ^ 24 := by
  have := c.bufSize_le
  simp only [ceil16]
  omega

/-- The body that `KS.GEN` and `KS.APPLY` share, on data of LEN bytes. -/
theorem keystreamBody_case (c : Config) (v : Byte) (data : State → List Byte) (s : State)
    (hdata : (data s).length = s.len.toNat) : BodyCase c v s (keystreamBody c data s) := by
  rw [keystreamBody]
  split_ifs with hlen
  · exact .failEarly _
  · cases s.keyOf c with
    | none => exact .failEarly _
    | some key =>
      have hfit : (data s).length ≤ c.bufSize := by omega
      have hcnt := ceil16_le_of_le_bufSize hfit
      exact .done _ _ _ _ (by simpa using hfit) (by rw [cnt_keystreamUnit]; omega) nofun

theorem gfMulBody_case (c : Config) (v : Byte) (s : State) : BodyCase c v s (gfMulBody s) :=
  .done _ _ _ _ (by have := c.le_bufSize; rw [Block.length_bytes]; omega) (by decide) nofun

theorem fdDigestBody_case (c : Config) (v : Byte) (s : State) : BodyCase c v s (fdDigestBody c s) := by
  rw [fdDigestBody]
  split_ifs with hlen
  · exact .failEarly _
  · exact .done _ _ _ _ (by have := c.le_bufSize; rw [Block.length_bytes]; omega) (by decide) nofun

theorem envOpenBody_case (c : Config) (s : State) :
    BodyCase c (encodeByte .envOpen) s (envOpenBody c s) := by
  rw [envOpenBody]
  split_ifs with hlen hmin
  · exact .failEarly _
  · exact .failEarly _
  · cases s.keyOf c with
    | none => exact .failEarly _
    | some key =>
      have hfit : s.len.toNat - 28 ≤ c.bufSize := by omega
      have hcnt : (openUnit c key s.input s.work).cnt ≤ 2 ^ 24 + 1 := by
        rw [cnt_openUnit, length_input]
        exact Nat.succ_le_succ (ceil16_le_of_le_bufSize hfit)
      simp only
      split_ifs with htag
      · exact .done _ _ _ _ (by simpa using hfit) hcnt fun _ => rfl
      · exact .fail _ _ _ hcnt

theorem envSealBody_case (c : Config) (v : Byte) (s : State) : BodyCase c v s (envSealBody c s) := by
  rw [envSealBody]
  split_ifs with hlen
  · exact .failEarly _
  · cases s.keyOf c with
    | none => exact .failEarly _
    | some key =>
      have hbuf := c.le_bufSize
      have hcnt : (sealUnit c key s.nonce.toList s.input s.work).cnt ≤ 2 ^ 24 + 1 := by
        rw [cnt_sealUnit, length_input]
        exact Nat.succ_le_succ (ceil16_le_of_le_bufSize (c := c) (by omega))
      exact .done _ _ _ _ (by rw [length_sealUnit, Vector.length_toList, length_input]; omega) hcnt nofun

theorem commandBody_case (c : Config) (i : Instr) (s : State) :
    BodyCase c (encodeByte i) s (commandBody c i s) := by
  cases i with
  | clr => exact .clr
  | ksGen => exact keystreamBody_case c _ (fun s => List.replicate s.len.toNat 0) s List.length_replicate
  | ksApply => exact keystreamBody_case c _ _ s (length_input s)
  | gfMul => exact gfMulBody_case c _ s
  | fdDigest => exact fdDigestBody_case c _ s
  | envOpen => exact envOpenBody_case c s
  | envSeal => exact envSealBody_case c _ s

/-! ### A write to CMD -/

@[simp] theorem commandWrite_encodeByte (i : Instr) (s : State) :
    commandWrite (encodeByte i) s = exec i s := by
  cases i <;> rfl

theorem commandWrite_of_reserved {v : Byte} (hv : ∀ i, encodeByte i ≠ v) (s : State) :
    commandWrite v s = badCommand s := by
  rw [commandWrite, decode_of_reserved hv]

/-- Every write to CMD ends in one of the exits. -/
theorem exists_commandWrite_eq (v : Byte) (s : State) :
    ∃ r, BodyCase Config.chosen v s.prologue r ∧ commandWrite v s = .next r.finish := by
  by_cases hv : ∃ i, encodeByte i = v
  · obtain ⟨i, rfl⟩ := hv
    exact ⟨_, commandBody_case _ i _, by rw [commandWrite_encodeByte, exec_eq_runCommand]; rfl⟩
  · exact ⟨_, .failEarly .badCommand, commandWrite_of_reserved (not_exists.mp hv) s⟩

section Finish
variable {c : Config} {v : Byte} {s : State} {r : BodyResult}

/-- Every command sets DONE (10_state.md R28). -/
theorem BodyCase.finish_done (h : BodyCase c v s r) : r.finish.done = true := by cases h <;> rfl

theorem BodyCase.finish_script (h : BodyCase c v s r) : r.finish.script = s.script := by
  cases h <;> rfl

theorem BodyCase.eq_of_finish_auth (h : BodyCase c v s r) (ha : r.finish.auth = true) : v = 0x30 := by
  cases h with
  | fail => cases ha
  | done _ _ _ _ _ _ hauth => exact hauth ha
  | clr => cases ha

end Finish

/-! ### What a step can do -/

/-- What a step from `s` to a next state can be (43_system.md R200 to R202). -/
inductive StepCase (s : State) : State → Prop
  | idle (hs : s.script = []) : StepCase s s
  | read (a : Addr) (rest : List HostEvent) (l : Location) (hs : s.script = .hrd a :: rest)
      (hl : locate Config.chosen a = some l) :
      StepCase s { s with script := rest, reads := s.readLocation l :: s.reads }
  | write (a : Addr) (v : Byte) (rest : List HostEvent) (l : Location) (hs : s.script = .hwr a v :: rest)
      (hl : locate Config.chosen a = some l) (hcmd : l ≠ .cmd) :
      StepCase s ({ s with script := rest }.writeLocation v l)
  | command (v : Byte) (rest : List HostEvent) (r : BodyResult) (hs : s.script = .hwr 0 v :: rest)
      (hr : BodyCase Config.chosen v { s with script := rest }.prologue r) : StepCase s r.finish
  | reset (rest : List HostEvent) (hs : s.script = .reset :: rest) :
      StepCase s { s with script := rest }.applyReset

theorem hostWrite_cmd (c : Config) (v : Byte) (s : State) : hostWrite c 0 v s = commandWrite v s := by
  rw [hostWrite, (locate_eq_cmd c 0).mpr rfl]

theorem hostWrite_of_locate {c : Config} {a : Addr} {l : Location} (h : locate c a = some l)
    (hl : l ≠ .cmd) (v : Byte) (s : State) : hostWrite c a v s = .next (s.writeLocation v l) := by
  simp [hostWrite, h]

theorem hostWrite_of_unmapped {c : Config} {a : Addr} (h : locate c a = none) (v : Byte) (s : State) :
    hostWrite c a v s = .refused (.unmappedWrite a) := by
  rw [hostWrite, h]

/-- The steps of the machine. -/
theorem stepCase_of_next {s t : State} (h : step s = .next t) : StepCase s t := by
  rcases hs : s.script with _ | ⟨e, rest⟩
  · rw [step_of_empty_script hs] at h
    cases h
    exact .idle hs
  · rw [step_of_script hs] at h
    cases e with
    | hrd a =>
      rw [portEvent, hostRead] at h
      rcases hl : locate Config.chosen a with _ | l
      · simp only [hl] at h
        cases h
      · simp only [hl] at h
        cases h
        exact .read a rest l hs hl
    | hwr a v =>
      rw [portEvent] at h
      rcases hl : locate Config.chosen a with _ | l
      · rw [hostWrite_of_unmapped hl] at h
        cases h
      · by_cases hc : l = .cmd
        · obtain rfl := (locate_eq_cmd _ a).mp (hc ▸ hl)
          obtain ⟨r, hr, he⟩ := exists_commandWrite_eq v { s with script := rest }
          rw [hostWrite_cmd, he] at h
          cases h
          exact .command v rest r hs hr
        · rw [hostWrite_of_locate hl hc] at h
          cases h
          exact .write a v rest l hs hl hc
    | reset =>
      cases h
      exact .reset rest hs

/-- A step takes one event off the script (notes/assumptions/1.md). -/
theorem script_of_next {s t : State} (h : step s = .next t) : t.script = s.script.tail := by
  cases stepCase_of_next h with
  | idle hs => simp [hs]
  | read a rest l hs hl => simp [hs]
  | write a v rest l hs hl hcmd =>
    obtain ⟨-, -, hscript, -⟩ := writeLocation_frame { s with script := rest } v l
    rw [hscript, hs, List.tail_cons]
  | command v rest r hs hr => rw [hr.finish_script, hs]; rfl
  | reset rest hs => rw [hs]; rfl

/-! ### The invariant -/

theorem inv_reset (c : Config) : Inv c State.reset where
  ibufWf := Memory.wf_zero
  obufWf := Memory.wf_zero
  ibufSize := nofun
  obufSize := nofun
  olenSize := Nat.zero_le _
  ecntBound := Nat.zero_le _
  workZero := rfl
  errLegal := by decide
  authErr := nofun
  failEmpty _ := rfl
  failCount _ _ := rfl
  fresh _ := ⟨rfl, rfl, rfl, rfl⟩

/-- The invariant says nothing of the host's side of the port. -/
theorem Inv.withHost {c : Config} {s : State} (h : Inv c s) (script : List HostEvent) (reads : List Byte) :
    Inv c { s with script := script, reads := reads } := { h with }

/-- A host write outside CMD keeps the invariant. -/
theorem Inv.writeLocation {c : Config} {s : State} (h : Inv c s) {a : Addr} {l : Location}
    (hl : locate c a = some l) (v : Byte) : Inv c (s.writeLocation v l) := by
  cases l with
  | ibuf off =>
    refine { h with ibufWf := Memory.wf_write h.ibufWf off v, ibufSize := fun cell hc => ?_ }
    rcases Memory.mem_write hc with hc | ⟨rfl, -⟩
    · exact h.ibufSize cell hc
    · exact lt_bufSize_of_locate hl
  | _ => exact { h with }

/-- IBUF in canonical form and within `BUF_SIZE`: the part of the invariant that a command takes from the
state it starts in. -/
def IbufOk (c : Config) (s : State) : Prop := Memory.wf s.ibuf ∧ ∀ cell ∈ s.ibuf, cell.1 < c.bufSize

theorem Inv.ibufOk {c : Config} {s : State} (h : Inv c s) : IbufOk c s := ⟨h.ibufWf, h.ibufSize⟩

theorem code_le (e : CmdError) : e.code.toNat ≤ 5 := by cases e <;> decide

theorem inv_failExit {c : Config} {s : State} (hi : IbufOk c s) (e : CmdError) {cnt : Nat}
    (hcnt : cnt ≤ 2 ^ 24 + 1) : Inv c (s.failExit e cnt) where
  ibufWf := hi.1
  obufWf := Memory.wf_zero
  ibufSize := hi.2
  obufSize := nofun
  olenSize := Nat.zero_le _
  ecntBound := by
    rw [State.failExit_ecnt]
    split_ifs
    · rw [BitVec.toNat_ofNat]; omega
    · exact Nat.zero_le _
  workZero := rfl
  errLegal := code_le e
  authErr := nofun
  failEmpty _ := rfl
  failCount _ hne := by
    rw [State.failExit_ecnt, if_neg fun he => hne (congrArg CmdError.code he)]
  fresh := nofun

theorem inv_epilogue {c : Config} {s : State} (hi : IbufOk c s) (ho : s.obuf = Memory.zero)
    (he : s.err = 0) {out : List Byte} {cnt : Nat} (hout : out.length ≤ c.bufSize)
    (hcnt : cnt ≤ 2 ^ 24 + 1) (auth : Bool) : Inv c (s.epilogue out cnt auth) := by
  have hbuf := c.bufSize_le
  have holen : (BitVec.ofNat 32 out.length).toNat = out.length := by rw [BitVec.toNat_ofNat]; omega
  exact {
    ibufWf := hi.1
    obufWf := Memory.wf_writeBytes (ho ▸ Memory.wf_zero) 0 out
    ibufSize := hi.2
    obufSize := by
      intro cell hc
      rw [State.epilogue_obuf, ho] at hc
      rw [State.epilogue_olen, holen]
      rcases Memory.mem_writeBytes hc with hc | ⟨-, hlt⟩
      · cases hc
      · omega
    olenSize := by rwa [State.epilogue_olen, holen]
    ecntBound := by rw [State.epilogue_ecnt, BitVec.toNat_ofNat]; omega
    workZero := rfl
    errLegal := by rw [State.epilogue_err, he]; decide
    authErr := fun _ => he
    failEmpty := fun hne => absurd he hne
    failCount := fun hne => absurd he hne
    fresh := nofun }

/-- A command ends in a state that meets the invariant. -/
theorem BodyCase.inv_finish {c : Config} {v : Byte} {s : State} {r : BodyResult} (hi : IbufOk c s)
    (h : BodyCase c v s.prologue r) : Inv c r.finish := by
  cases h with
  | fail e cnt w hcnt => exact inv_failExit hi e hcnt
  | done out cnt auth w hout hcnt hauth =>
    exact inv_epilogue (s := s.prologue.setWork w) hi rfl rfl hout hcnt auth
  | clr =>
    refine inv_epilogue ⟨Memory.wf_zero, ?_⟩ rfl rfl (Nat.zero_le _) (Nat.zero_le _) false
    exact fun _ hc => absurd hc List.not_mem_nil

theorem Inv.of_next {s t : State} (h : Inv Config.chosen s) (hstep : step s = .next t) :
    Inv Config.chosen t := by
  cases stepCase_of_next hstep with
  | idle => exact h
  | read a rest l hs hl => exact h.withHost _ _
  | write a v rest l hs hl hcmd => exact (h.withHost rest s.reads).writeLocation hl v
  | command v rest r hs hr => exact hr.inv_finish (s := { s with script := rest }) h.ibufOk
  | reset rest hs => exact (inv_reset _).withHost _ _

/-- Settles O48: a step is one of the cases of `StepCase`, and each of them keeps the invariant. -/
theorem invariantKeptByEveryStep : Obligations.InvariantKeptByEveryStep :=
  fun _ _ h hstep => h.of_next hstep

/-- Settles O49: with every field zero each clause holds at once. -/
theorem invariantAtReset : Obligations.InvariantAtReset := inv_reset Config.chosen

/-- Settles O14, field by field. -/
theorem resetStateIsAllZero : Obligations.ResetStateIsAllZero :=
  ⟨fun i => Vector.getElem_replicate i.isLt, rfl, fun i => Vector.getElem_replicate i.isLt,
    fun i => Vector.getElem_replicate i.isLt, rfl, rfl, rfl, rfl, rfl, rfl, rfl, Memory.read_nil,
    Memory.read_nil, rfl, rfl, rfl, rfl, rfl⟩

/-- Settles O50, by DONE and AUTH: with DONE clear there is no outcome, with AUTH set there is no error,
and otherwise ERR is at most 5. -/
theorem statusReadsLegalValuesOnly : Obligations.StatusReadsLegalValuesOnly := by
  intro s h
  rw [State.status]
  rcases hd : s.done with _ | _
  · obtain ⟨ha, he, -, -⟩ := h.fresh hd
    rw [ha, he]
    decide
  · rcases ha : s.auth with _ | _
    · have herr := h.errLegal
      generalize s.err = e at herr
      revert e
      decide
    · rw [h.authErr ha]
      decide

/-! ### DONE and AUTH -/

/-- Where DONE and AUTH stay, the rule asks for nothing. -/
theorem doneAuthRule_of_eq {s t : State} {p q : Prop} (hd : t.done = s.done) (ha : t.auth = s.auth) :
    (s.done = true → t.done = false → p) ∧ (s.auth = false → t.auth = true → q) := by
  rw [hd, ha]
  exact ⟨fun h h' => absurd (h.symm.trans h') nofun, fun h h' => absurd (h.symm.trans h') nofun⟩

/-- Settles O51: of the cases of `StepCase` only a reset clears DONE, and only a command whose byte is the
code of `ENV.OPEN` sets AUTH. -/
theorem doneAndAuthChangeOnlyByRule : Obligations.DoneAndAuthChangeOnlyByRule := by
  intro s t hstep
  cases stepCase_of_next hstep with
  | idle => exact doneAuthRule_of_eq rfl rfl
  | read => exact doneAuthRule_of_eq rfl rfl
  | write a v rest l hs hl hcmd =>
    obtain ⟨hres, -⟩ := writeLocation_frame { s with script := rest } v l
    exact doneAuthRule_of_eq hres.done hres.auth
  | command v rest r hs hr =>
    refine ⟨fun _ hd => absurd (hr.finish_done.symm.trans hd) nofun, fun _ ha => ?_⟩
    rw [hs, hr.eq_of_finish_auth ha]
    rfl
  | reset rest hs => exact ⟨fun _ _ => by rw [hs]; rfl, fun _ ha => nomatch ha⟩

/-! ### Two machines that differ in KEY alone -/

/-- The two outcomes are next states that differ in KEY alone, or the same refusal. -/
inductive AlikeButKey :
    Host.Outcome State Fault Refusal → Host.Outcome State Fault Refusal → Prop
  | next (t : State) (k : Vector Byte 32) : AlikeButKey (.next t) (.next { t with key := k })
  | refused (r : Refusal) : AlikeButKey (.refused r) (.refused r)

/-- A command whose body reads nothing of KEY and passes it on. -/
theorem runCommand_alikeButKey {body : State → BodyResult} {k : Vector Byte 32}
    (hbody : ∀ u, (body { u with key := k }).finish = { (body u).finish with key := k }) (s : State) :
    AlikeButKey (runCommand body s) (runCommand body { s with key := k }) := by
  have hrun : runCommand body { s with key := k } = .next { (body s.prologue).finish with key := k } :=
    congrArg Host.Outcome.next (hbody s.prologue)
  rw [hrun]
  exact .next _ k

/-- The commands that do not use the cipher read nothing of KEY (30_encoding.md R93). -/
theorem exec_alikeButKey (i : Instr) (hi : i ∉ [Instr.ksGen, .ksApply, .envOpen, .envSeal]) (s : State)
    (k : Vector Byte 32) : AlikeButKey (exec i s) (exec i { s with key := k }) := by
  cases i with
  | clr => exact .next _ (Vector.replicate 32 0)
  | gfMul => exact runCommand_alikeButKey (fun _ => rfl) s
  | fdDigest =>
    refine runCommand_alikeButKey (fun u => ?_) s
    simp only [fdDigestBody]
    split_ifs <;> rfl
  | ksGen | ksApply | envOpen | envSeal => simp at hi

theorem commandWrite_alikeButKey {v : Byte} (hv : (HostEvent.hwr 0 v).usesKey = false) (s : State)
    (k : Vector Byte 32) : AlikeButKey (commandWrite v s) (commandWrite v { s with key := k }) := by
  by_cases hc : ∃ i, encodeByte i = v
  · obtain ⟨i, rfl⟩ := hc
    rw [commandWrite_encodeByte, commandWrite_encodeByte]
    refine exec_alikeButKey i (fun hi => ?_) s k
    have huse : (HostEvent.hwr 0 (encodeByte i)).usesKey = true :=
      List.any_eq_true.mpr ⟨i, hi, beq_self_eq_true _⟩
    exact absurd (huse.symm.trans hv) nofun
  · rw [commandWrite_of_reserved (not_exists.mp hc), commandWrite_of_reserved (not_exists.mp hc)]
    exact .next _ k

/-- KEY reads as zero, whatever it holds (10_state.md R41). -/
theorem readLocation_setKey (s : State) (k : Vector Byte 32) (l : Location) :
    { s with key := k }.readLocation l = s.readLocation l := by
  cases l <;> rfl

/-- A host write changes KEY only byte by byte, and nothing else by what KEY holds. -/
theorem writeLocation_alikeButKey (s : State) (k : Vector Byte 32) (v : Byte) (l : Location) :
    AlikeButKey (.next (s.writeLocation v l)) (.next ({ s with key := k }.writeLocation v l)) := by
  cases l with
  | key i => exact .next _ (k.set i v)
  | _ => exact .next _ k

theorem portEvent_alikeButKey {e : HostEvent} (he : e.usesKey = false) (s : State) (k : Vector Byte 32) :
    AlikeButKey (portEvent Config.chosen e s) (portEvent Config.chosen e { s with key := k }) := by
  cases e with
  | hrd a =>
    simp only [portEvent, hostRead, readLocation_setKey]
    cases locate Config.chosen a with
    | none => exact .refused _
    | some l => exact .next _ k
  | hwr a v =>
    simp only [portEvent]
    rcases hl : locate Config.chosen a with _ | l
    · rw [hostWrite_of_unmapped hl, hostWrite_of_unmapped hl]
      exact .refused _
    · by_cases hc : l = .cmd
      · obtain rfl := (locate_eq_cmd _ a).mp (hc ▸ hl)
        rw [hostWrite_cmd, hostWrite_cmd]
        exact commandWrite_alikeButKey he s k
      · rw [hostWrite_of_locate hl hc, hostWrite_of_locate hl hc]
        exact writeLocation_alikeButKey s k v l
  | reset => exact .next _ State.reset.key

theorem step_alikeButKey {s : State} (hs : ∀ e ∈ s.script, e.usesKey = false) (k : Vector Byte 32) :
    AlikeButKey (step s) (step { s with key := k }) := by
  by_cases h : s.script = []
  · rw [step_of_empty_script h, step_of_empty_script (s := { s with key := k }) h]
    exact .next s k
  · obtain ⟨e, rest, h⟩ := List.exists_cons_of_ne_nil h
    rw [step_of_script h, step_of_script (s := { s with key := k }) h]
    exact portEvent_alikeButKey (hs e (by simp [h])) _ k

theorem run_alikeButKey (n : Nat) {s : State} (hs : ∀ e ∈ s.script, e.usesKey = false)
    (k : Vector Byte 32) : AlikeButKey (core.run n s) (core.run n { s with key := k }) := by
  induction n generalizing s k with
  | zero => exact .next s k
  | succ n ih =>
    have hstep := step_alikeButKey hs k
    generalize h : step s = o, h' : step { s with key := k } = o' at hstep
    cases hstep with
    | next t k' =>
      rw [run_of_next h, run_of_next h']
      exact ih (fun e he => hs e (List.mem_of_mem_tail (script_of_next h ▸ he))) k'
    | refused r =>
      rw [run_of_refused h, run_of_refused h']
      exact .refused r

/-- Settles O52, by induction on the number of steps. -/
theorem hostNeverReadsTheKey : Obligations.HostNeverReadsTheKey := by
  intro s k n hs
  have hrun := run_alikeButKey n hs k
  generalize core.run n s = o, core.run n { s with key := k } = o' at hrun
  cases hrun with
  | next t k' => exact ⟨fun _ ht => by cases ht; exact ⟨k', rfl⟩, nofun⟩
  | refused r => exact ⟨nofun, fun _ hr => by cases hr; rfl⟩

end Sys2Proof.Machine
end

section
/-! # Host accesses and the memory map (20_memory.md)

An access is refused exactly because its address has no location (R67); `locate_eq_none` says which
addresses those are. -/

namespace Sys2Proof.Machine

theorem hostRead_of_unmapped {c : Config} {a : Addr} (h : locate c a = none) (s : State) :
    hostRead c a s = .refused (.unmappedRead a) := by
  rw [hostRead, h]

/-- A host read of an unmapped address. -/
theorem step_read_of_unmapped {s : State} {rest : List HostEvent} {a : Addr}
    (h : locate Config.chosen a = none) :
    step { s with script := .hrd a :: rest } = .refused (.unmappedRead a) := by
  rw [step_of_script rfl, portEvent, hostRead_of_unmapped h]

/-- A host write to an unmapped address. -/
theorem step_write_of_unmapped {s : State} {rest : List HostEvent} {a : Addr} {v : Byte}
    (h : locate Config.chosen a = none) :
    step { s with script := .hwr a v :: rest } = .refused (.unmappedWrite a) := by
  rw [step_of_script rfl, portEvent, hostWrite_of_unmapped h]

/-- Settles O7: an unmapped address has no location, so neither a read nor a write of it has a step. -/
theorem unmappedAccessIsRefused : Obligations.UnmappedAccessIsRefused := by
  intro s rest a v ha
  have hl : locate Config.chosen a = none := (locate_eq_none _ a).mpr ha
  exact ⟨step_read_of_unmapped hl, step_write_of_unmapped hl⟩

end Sys2Proof.Machine
end

section
/-! # Encoding and host-script lines (30_encoding.md)

The decoder inverts the encoder; a script line of writes or reads runs as one access after another; and
what a command may change and what its results may depend on follow from its body. -/

namespace Sys2Proof

/-! ### The opcode map (R90, R91) -/

theorem decodeByte_encodeByte (i : Instr) : decodeByte (encodeByte i) = some i := by
  cases i <;> rfl

/-- UNIT and OP of a row are those of its command. -/
theorem fields_of_mem_opcodeMap {r : OpcodeRow} (h : r ∈ opcodeMap) :
    r.unit = unitOf r.instr ∧ r.op = opOf r.instr := by
  revert r
  decide

theorem toNat_unitField (c : Byte) : (unitField c).toNat = c.toNat / 16 := by
  rw [unitField, BitVec.extractLsb'_toNat, Nat.shiftRight_eq_div_pow]
  omega

theorem toNat_opField (c : Byte) : (opField c).toNat = c.toNat % 16 := by
  rw [opField, BitVec.extractLsb'_toNat, Nat.shiftRight_zero]

/-- A command byte is its two fields. -/
theorem unitField_append_opField (c : Byte) : unitField c ++ opField c = c := by
  apply BitVec.eq_of_toNat_eq
  rw [BitVec.toNat_append, toNat_unitField, toNat_opField, ← Nat.shiftLeft_add_eq_or_of_lt (by omega),
    Nat.shiftLeft_eq]
  omega

/-- Only the code of a command selects it. -/
theorem eq_encodeByte_of_decodeByte {c : Byte} {i : Instr} (h : decodeByte c = some i) :
    c = encodeByte i := by
  obtain ⟨r, hfind, rfl⟩ := Option.map_eq_some_iff.mp h
  obtain ⟨hunit, hop⟩ := fields_of_mem_opcodeMap (List.mem_of_find?_eq_some hfind)
  obtain ⟨hu, ho⟩ : r.unit = unitField c ∧ r.op = opField c := by simpa using List.find?_some hfind
  rw [encodeByte, ← hunit, ← hop, hu, ho, unitField_append_opField]

/-- What decodes, and to what. -/
theorem decode_eq_ok_iff {bs : List Byte} {i : Instr} {rest : List Byte} :
    decode bs = .ok (i, rest) ↔ bs = encode i ++ rest := by
  constructor
  · intro h
    cases bs with
    | nil => cases h
    | cons c bs =>
      rw [decode] at h
      cases hc : decodeByte c with
      | none => simp [hc] at h
      | some j =>
        rw [hc] at h
        cases h
        rw [eq_encodeByte_of_decodeByte hc]
        rfl
  · rintro rfl
    simp [encode, decode, decodeByte_encodeByte]

/-- Settles O2, both directions from `decode_eq_ok_iff`. -/
theorem decodeInvertsEncode : Obligations.DecodeInvertsEncode :=
  ⟨fun _ _ _ => decode_eq_ok_iff.mpr rfl, fun _ _ _ => decode_eq_ok_iff.mp⟩

theorem unitField_encodeByte (i : Instr) : unitField (encodeByte i) = unitOf i := by
  cases i <;> rfl

theorem opField_encodeByte (i : Instr) : opField (encodeByte i) = opOf i := by
  cases i <;> rfl

theorem encodeByte_mem_codes (i : Instr) :
    encodeByte i ∈ ([0x01, 0x10, 0x11, 0x20, 0x21, 0x30, 0x31] : List Byte) := by
  cases i <;> decide

/-- Settles O1: the seven codes are the encodings of the commands, and any other byte is reserved. -/
theorem commandCodesDecode : Obligations.CommandCodesDecode :=
  ⟨rfl, rfl, rfl, rfl, rfl, rfl, rfl, fun i => ⟨unitField_encodeByte i, opField_encodeByte i⟩,
    fun c => ⟨toNat_unitField c, toNat_opField c⟩,
    fun _ hc => Machine.decode_of_reserved fun i hi => hc (hi ▸ encodeByte_mem_codes i)⟩

namespace Machine

/-! ### A step that writes to CMD (R90, R99) -/

/-- A write of a command's code to CMD is the command. -/
theorem step_encodeByte {s : State} {i : Instr} {rest : List HostEvent}
    (h : s.script = .hwr 0 (encodeByte i) :: rest) : step s = exec i { s with script := rest } := by
  rw [step_of_script h, portEvent, hostWrite_cmd, commandWrite_encodeByte]

/-- Settles O3: a byte that decodes to a command is that command's code. -/
theorem stepRunsTheCommandWritten : Obligations.StepRunsTheCommandWritten := by
  intro s v rest i hs hv
  obtain rfl : v = encodeByte i := by simpa [encode] using decode_eq_ok_iff.mp hv
  exact step_encodeByte hs

/-! ### Runs of writes and of reads -/

theorem run_one (s : State) : core.run 1 s = step s := by
  rcases hs : step s with t | f | r
  · exact run_of_next hs
  · cases f
  · exact run_of_refused hs

/-- A run and one more step. -/
theorem run_succ_of_next {n : Nat} {s u : State} (h : core.run n s = .next u) :
    core.run (n + 1) s = step u :=
  (run_add h).trans (run_one u)

theorem writesAt_concat (base : Addr) (b : List Byte) (v : Byte) :
    writesAt base (b ++ [v]) = writesAt base b ++ [.hwr (base + BitVec.ofNat 32 b.length) v] := by
  simp [writesAt, List.mapIdx_append]

theorem readsAt_succ (base : Addr) (n : Nat) :
    readsAt base (n + 1) = readsAt base n ++ [.hrd (base + BitVec.ofNat 32 n)] := by
  simp [readsAt, List.range_succ]

/-- A host write does not look at the script. -/
theorem writeLocation_setScript (s : State) (script : List HostEvent) (v : Byte) (l : Location) :
    { s with script := script }.writeLocation v l = { s.writeLocation v l with script := script } := by
  cases l <;> rfl

/-- A host read does not look at what the host has read before. -/
theorem readLocation_setReads (s : State) (reads : List Byte) (l : Location) :
    { s with reads := reads }.readLocation l = s.readLocation l := by
  cases l <;> rfl

/-- Writes to ascending addresses, none of them CMD, where `after b` is the state that the bytes `b`
leave: it is enough that each further byte leads on. -/
theorem run_writesAt {base : Addr} {n : Nat} {loc : Nat → Location} {after : List Byte → State}
    (hloc : ∀ i < n, locate Config.chosen (base + BitVec.ofNat 32 i) = some (loc i))
    (hcmd : ∀ i, loc i ≠ .cmd)
    (hafter : ∀ b v, b.length < n → (after b).writeLocation v (loc b.length) = after (b ++ [v]))
    {b : List Byte} (hb : b.length ≤ n) (rest : List HostEvent) :
    core.run b.length { after [] with script := writesAt base b ++ rest } =
      .next { after b with script := rest } := by
  induction b using List.reverseRecOn generalizing rest with
  | nil => rfl
  | append_singleton b v ih =>
    rw [List.length_append, List.length_singleton] at hb ⊢
    have hrun := ih (by omega) (.hwr (base + BitVec.ofNat 32 b.length) v :: rest)
    have hstep : step { after b with script := .hwr (base + BitVec.ofNat 32 b.length) v :: rest } =
        .next { after (b ++ [v]) with script := rest } := by
      rw [step_write (hloc _ (by omega)) (hcmd _), writeLocation_setScript, hafter b v (by omega)]
    rw [writesAt_concat, List.append_assoc]
    exact (run_succ_of_next hrun).trans hstep

/-- Reads of ascending addresses; the newest byte is the first of `reads`. -/
theorem run_readsAt {base : Addr} {n : Nat} {loc : Nat → Location} (s : State)
    (hloc : ∀ i < n, locate Config.chosen (base + BitVec.ofNat 32 i) = some (loc i))
    (rest : List HostEvent) :
    core.run n { s with script := readsAt base n ++ rest } =
      .next { s with
        script := rest
        reads := ((List.range n).map fun i => s.readLocation (loc i)).reverse ++ s.reads } := by
  induction n generalizing rest with
  | zero => rfl
  | succ n ih =>
    have hrun := ih (fun i hi => hloc i (by omega)) (.hrd (base + BitVec.ofNat 32 n) :: rest)
    have hstep := step_read
      (s := { s with reads := ((List.range n).map fun i => s.readLocation (loc i)).reverse ++ s.reads })
      (rest := rest) (hloc n (by omega))
    rw [readLocation_setReads] at hstep
    rw [readsAt_succ, List.append_assoc, List.range_succ, List.map_append, List.reverse_append]
    exact (run_succ_of_next hrun).trans hstep

/-! ### Registers of several bytes -/

/-- A register whose first bytes are `b` and whose later bytes are those of `r`. -/
def loadBytes {n : Nat} (r : Vector Byte n) (b : List Byte) : Vector Byte n :=
  Vector.ofFn fun i => b.getD i r[i]

theorem getElem_loadBytes {n : Nat} (r : Vector Byte n) (b : List Byte) {i : Nat} (hi : i < n) :
    (loadBytes r b)[i] = b.getD i r[i] := by simp [loadBytes]

@[simp] theorem loadBytes_nil {n : Nat} (r : Vector Byte n) : loadBytes r [] = r :=
  Vector.ext fun _ => getElem_loadBytes r []

@[simp] theorem loadBytes_toList {n : Nat} (r b : Vector Byte n) : loadBytes r b.toList = b :=
  Vector.ext fun i hi => by simp [getElem_loadBytes, List.getD_eq_getElem?_getD, hi]

/-- The next byte of a register that is loaded in order. -/
theorem set_loadBytes {n : Nat} (r : Vector Byte n) {b : List Byte} {i : Nat} (hi : i < n)
    (hb : i = b.length) (v : Byte) : (loadBytes r b).set i v = loadBytes r (b ++ [v]) := by
  subst hb
  apply Vector.ext
  intro j hj
  rw [Vector.getElem_set, getElem_loadBytes, getElem_loadBytes]
  rcases lt_trichotomy j b.length with h | rfl | h
  · rw [if_neg (by omega), List.getD_append _ _ _ _ h]
  · simp
  · rw [if_neg (by omega), List.getD_eq_default _ _ (by omega), List.getD_eq_default]
    rw [List.length_append, List.length_singleton]
    omega

/-! ### The addresses of a script line -/

/-- `base + i` in the register space. -/
theorem locate_reg_add (c : Config) {base i : Nat} (h : base + i < 2 ^ 30) :
    locate c (BitVec.ofNat 32 base + BitVec.ofNat 32 i) = registerAt (base + i) := by
  rw [← BitVec.ofNat_add, locate_reg c _ h]

theorem registerAt_len : ∀ i < 4, registerAt (0x04 + i) = some (.len (Fin.ofNat 4 i)) := by decide
theorem registerAt_olen : ∀ i < 4, registerAt (0x08 + i) = some (.olen (Fin.ofNat 4 i)) := by decide
theorem registerAt_ecnt : ∀ i < 4, registerAt (0x0C + i) = some (.ecnt (Fin.ofNat 4 i)) := by decide
theorem registerAt_ctrblk : ∀ i < 16, registerAt (0x10 + i) = some (.ctrblk (Fin.ofNat 16 i)) := by decide
theorem registerAt_nonce : ∀ i < 12, registerAt (0x20 + i) = some (.nonce (Fin.ofNat 12 i)) := by decide
theorem registerAt_key : ∀ i < 32, registerAt (0x40 + i) = some (.key (Fin.ofNat 32 i)) := by decide

/-! ### The lines that write (R99, R100) -/

section RegisterWrites
variable {n base : Nat} [NeZero n] {loc : Fin n → Location} {put : Vector Byte n → State}
  (hbase : base + n ≤ 2 ^ 30) (hloc : ∀ i < n, registerAt (base + i) = some (loc (Fin.ofNat n i)))
  (hcmd : ∀ i, loc i ≠ .cmd) (hput : ∀ r i v, (put r).writeLocation v (loc i) = put (r.set i v))
include hbase hloc hcmd hput

/-- Writes to the first bytes of a register, where `put r` is the state that has `r` in it. -/
theorem run_registerWrites (r : Vector Byte n) {b : List Byte} (hb : b.length ≤ n)
    (rest : List HostEvent) :
    core.run b.length { put r with script := writesAt (BitVec.ofNat 32 base) b ++ rest } =
      .next { put (loadBytes r b) with script := rest } := by
  have hrun := run_writesAt (loc := fun i => loc (Fin.ofNat n i)) (after := fun b => put (loadBytes r b))
    (fun i hi => (locate_reg_add Config.chosen (base := base) (by omega)).trans (hloc i hi))
    (fun _ => hcmd _)
    (fun b v hlt => (hput _ _ v).trans (congrArg put (set_loadBytes r _ (Nat.mod_eq_of_lt hlt) v))) hb rest
  rwa [loadBytes_nil] at hrun

/-- Writes to all bytes of a register leave nothing of what it held. -/
theorem run_wholeRegisterWrites (r b : Vector Byte n) (rest : List HostEvent) :
    core.run n { put r with script := writesAt (BitVec.ofNat 32 base) b.toList ++ rest } =
      .next { put b with script := rest } := by
  have hrun := run_registerWrites hbase hloc hcmd hput r (b := b.toList) Vector.length_toList.le rest
  rwa [loadBytes_toList, Vector.length_toList] at hrun

end RegisterWrites

/-- The four writes of LEN: each replaces one byte of the number that is in LEN by then. -/
theorem run_lenWrites (s : State) (n : Nat) (rest : List HostEvent) :
    core.run 4 { s with script := lenWrites n ++ rest } =
      .next { s with script := rest, len := BitVec.ofNat 32 n } := by
  have hrun := run_wholeRegisterWrites (loc := .len) (put := fun r => { s with len := word32 r })
    (by decide) registerAt_len (fun _ => nofun) (fun r i v => by rw [State.writeLocation, be32_word32])
    (be32 s.len) (be32 (BitVec.ofNat 32 n)) rest
  rwa [word32_be32, word32_be32] at hrun

theorem Memory.writeBytes_concat (m : Memory) (a : Nat) (b : List Byte) (v : Byte) :
    writeBytes m a (b ++ [v]) = write (writeBytes m a b) (a + b.length) v := by
  induction b generalizing m a with
  | nil => rfl
  | cons w b ih =>
    rw [List.cons_append, writeBytes, ih, writeBytes, List.length_cons, Nat.add_assoc, Nat.add_comm 1]

theorem locate_ibuf_add {c : Config} {i : Nat} (h : i < c.bufSize) :
    locate c (0x40000000 + BitVec.ofNat 32 i) = some (.ibuf i) :=
  (congrArg (locate c) (BitVec.ofNat_add _ _).symm).trans (locate_ibuf c i h)

theorem locate_obuf_add {c : Config} {i : Nat} (h : i < c.bufSize) :
    locate c (0x80000000 + BitVec.ofNat 32 i) = some (.obuf i) :=
  (congrArg (locate c) (BitVec.ofNat_add _ _).symm).trans (locate_obuf c i h)

theorem run_ibufWrites (s : State) {b : List Byte} (hb : b.length ≤ Config.chosen.bufSize)
    (rest : List HostEvent) :
    core.run b.length { s with script := writesAt 0x40000000 b ++ rest } =
      .next { s with script := rest, ibuf := Memory.writeBytes s.ibuf 0 b } :=
  run_writesAt (loc := .ibuf) (after := fun b => { s with ibuf := Memory.writeBytes s.ibuf 0 b })
    (fun _ => locate_ibuf_add) (fun _ => nofun)
    (fun b v _ => by rw [State.writeLocation, Memory.writeBytes_concat, Nat.zero_add]) hb rest

/-- The write of KEYLEN. -/
theorem step_keylenWrite (s : State) (v : Byte) (rest : List HostEvent) :
    step { s with script := .hwr 0x02 v :: rest } = .next { s with script := rest, keylen := v } :=
  step_write (l := .keylen) rfl nofun

/-- Settles O10: the key bytes in order, then KEYLEN. -/
theorem keyLineLoadsTheKey : Obligations.KeyLineLoadsTheKey := by
  intro s b rest hb
  refine ⟨loadBytes s.key b, ?_, fun i hi => ?_⟩
  · have hkey := run_registerWrites (put := fun k => { s with key := k }) (by decide) registerAt_key
      (fun _ => nofun) (fun _ _ _ => rfl) s.key hb (.hwr 0x02 (BitVec.ofNat 8 b.length) :: rest)
    rw [ScriptLine.expand, List.append_assoc]
    exact (run_succ_of_next hkey).trans (step_keylenWrite { s with key := loadBytes s.key b } _ rest)
  · rw [getElem_loadBytes]
    split_ifs with h
    · exact List.getD_eq_getElem _ _ h
    · exact List.getD_eq_default _ _ (by omega)

/-- Settles O11: the bytes of IBUF in order, then the four bytes of LEN. -/
theorem inLineLoadsTheInput : Obligations.InLineLoadsTheInput := by
  intro s b rest hwf hb
  refine ⟨Memory.writeBytes s.ibuf 0 b, ?_, fun a => ?_⟩
  · rw [ScriptLine.expand, List.append_assoc]
    exact (run_add (run_ibufWrites s hb _)).trans
      (run_lenWrites { s with ibuf := Memory.writeBytes s.ibuf 0 b } _ rest)
  · rw [Memory.read_writeBytes hwf]
    by_cases h : a < b.length
    · rw [if_pos (by omega), dif_pos h]
      exact List.getD_eq_getElem _ _ h
    · rw [if_neg (by omega), dif_neg h]

/-- Settles O12, line by line: a whole register of bytes is what was written to it. -/
theorem registerLinesLoadTheirRegister : Obligations.RegisterLinesLoadTheirRegister := by
  intro s rest
  refine ⟨fun b => ?_, fun b => ?_, fun n _ => run_lenWrites s n rest, fun n _ => ?_, fun i => ?_⟩
  · exact run_wholeRegisterWrites (put := fun r => { s with ctrblk := r }) (by decide) registerAt_ctrblk
      (fun _ => nofun) (fun _ _ _ => rfl) s.ctrblk b rest
  · exact run_wholeRegisterWrites (put := fun r => { s with nonce := r }) (by decide) registerAt_nonce
      (fun _ => nofun) (fun _ _ _ => rfl) s.nonce b rest
  · exact (run_one _).trans (step_keylenWrite s _ rest)
  · exact (run_one _).trans (step_encodeByte rfl)

/-! ### The lines that read (R100) -/

/-- Settles O13: each line is a run of reads of ascending addresses. -/
theorem readLinesReturnTheResults : Obligations.ReadLinesReturnTheResults := by
  intro s rest
  refine ⟨?_, ?_, ?_, fun n hn => ?_⟩
  · exact (run_one _).trans (step_read (l := .status) rfl)
  · exact run_readsAt s (loc := fun i => .olen (Fin.ofNat 4 i))
      (fun i hi => (locate_reg_add _ (base := 0x08) (by omega)).trans (registerAt_olen i hi)) rest
  · exact run_readsAt s (loc := fun i => .ecnt (Fin.ofNat 4 i))
      (fun i hi => (locate_reg_add _ (base := 0x0C) (by omega)).trans (registerAt_ecnt i hi)) rest
  · have hrun := run_readsAt s (n := n) (loc := .obuf) (fun i hi => locate_obuf_add (by omega)) rest
    simpa only [ScriptLine.expand, Memory.readBytes, State.readLocation, Nat.zero_add] using hrun

/-! ### What a command may change (R93, R97) -/

/-- The state a body ends in. -/
def BodyResult.state : BodyResult → State
  | .fail _ _ s => s
  | .done _ _ _ s => s

/-- Neither exit touches an operand. -/
theorem SameOperands.finish {s : State} {r : BodyResult} (h : SameOperands s r.state) :
    SameOperands s r.finish := by
  cases r <;> exact ⟨h.key, h.keylen, h.ctrblk, h.nonce, h.len, h.ibuf, h.script, h.reads⟩

section Operands
variable {c : Config} {u s : State} (h : SameOperands u s)
include h

theorem keystreamBody_sameOperands (data : State → List Byte) :
    SameOperands u (keystreamBody c data s).state := by
  rw [keystreamBody]
  split_ifs with hlen
  · exact h
  · cases s.keyOf c with
    | none => exact h
    | some key => exact h.setWork _

theorem fdDigestBody_sameOperands : SameOperands u (fdDigestBody c s).state := by
  rw [fdDigestBody]
  split_ifs with hlen
  · exact h
  · exact h.setWork _

theorem envOpenBody_sameOperands : SameOperands u (envOpenBody c s).state := by
  rw [envOpenBody]
  split_ifs with hlen hmin
  · exact h
  · exact h
  · cases s.keyOf c with
    | none => exact h
    | some key =>
      simp only
      split_ifs with htag
      · exact h.setWork _
      · exact h.setWork _

theorem envSealBody_sameOperands : SameOperands u (envSealBody c s).state := by
  rw [envSealBody]
  split_ifs with hlen
  · exact h
  · cases s.keyOf c with
    | none => exact h
    | some key => exact h.setWork _

/-- Every body but that of `CLR` changes the working registers alone. -/
theorem commandBody_sameOperands {i : Instr} (hi : i ≠ .clr) :
    SameOperands u (commandBody c i s).state := by
  cases i with
  | clr => exact absurd rfl hi
  | ksGen => exact keystreamBody_sameOperands h fun s => List.replicate s.len.toNat 0
  | ksApply => exact keystreamBody_sameOperands h _
  | gfMul => exact h.setWork _
  | fdDigest => exact fdDigestBody_sameOperands h
  | envOpen => exact envOpenBody_sameOperands h
  | envSeal => exact envSealBody_sameOperands h

end Operands

section Finish
variable {c : Config} {v : Byte} {s : State} {r : BodyResult}

theorem BodyCase.finish_work (h : BodyCase c v s r) : r.finish.work = Work.zero := by cases h <;> rfl

theorem BodyCase.finish_reads (h : BodyCase c v s r) : r.finish.reads = s.reads := by cases h <;> rfl

/-- OBUF holds the output and zeros after it (10_state.md R31). -/
theorem BodyCase.finish_obuf_zero (h : BodyCase c v s.prologue r) {a : Nat}
    (ha : r.finish.olen.toNat ≤ a) : Memory.read r.finish.obuf a = 0 := by
  cases h with
  | fail => exact Memory.read_zero a
  | clr => exact Memory.read_zero a
  | done out cnt auth w hout =>
    have hbuf := c.bufSize_le
    have hlen : out.length ≤ a := by
      rwa [BodyResult.finish, State.epilogue_olen, BitVec.toNat_ofNat, Nat.mod_eq_of_lt (by omega)] at ha
    rw [BodyResult.finish, State.epilogue_obuf, State.setWork_obuf, State.prologue_obuf,
      Memory.read_writeBytes Memory.wf_zero, if_neg (by omega), Memory.read_zero]

/-- A failed command has no output (60_exceptions.md R229). -/
theorem BodyCase.finish_olen_of_err (h : BodyCase c v s.prologue r) (he : r.finish.err ≠ 0) :
    r.finish.olen = 0 := by
  cases h with
  | fail => rfl
  | done => exact absurd rfl he
  | clr => rfl

end Finish

/-- Settles O24: the operands by `commandBody_sameOperands`, the rest for every exit a body can take. -/
theorem onlyClrChangesOperands : Obligations.OnlyClrChangesOperands := by
  intro i s
  have hcase := commandBody_case Config.chosen i s.prologue
  exact ⟨_, exec_eq_runCommand i s, fun hi => (commandBody_sameOperands (.prologue s) hi).finish,
    hcase.finish_done, hcase.finish_work, hcase.finish_script, hcase.finish_reads,
    fun _ => hcase.finish_obuf_zero, hcase.finish_olen_of_err⟩

/-! ### What the results of a command may depend on (R93) -/

/-- The two bodies ask for the same exit, over the same OBUF and ERR. -/
inductive SameExit : BodyResult → BodyResult → Prop
  | fail (e : CmdError) (cnt : Nat) (s s' : State) : SameExit (.fail e cnt s) (.fail e cnt s')
  | done (out : List Byte) (cnt : Nat) (auth : Bool) (s s' : State) (hobuf : s'.obuf = s.obuf)
      (herr : s'.err = s.err) : SameExit (.done out cnt auth s) (.done out cnt auth s')

theorem SameExit.sameResults {r r' : BodyResult} (h : SameExit r r') : SameResults r.finish r'.finish := by
  cases h with
  | fail => exact ⟨rfl, rfl, rfl, rfl, rfl, fun _ => rfl⟩
  | done out cnt auth s s' hobuf herr =>
    refine ⟨rfl, rfl, herr, rfl, rfl, fun a => ?_⟩
    rw [BodyResult.finish, BodyResult.finish, State.epilogue_obuf, State.epilogue_obuf, hobuf]

theorem SameKey.keyOf_eq {s s' : State} (h : SameKey s s') (c : Config) : s'.keyOf c = s.keyOf c := by
  obtain ⟨hlen, hkey⟩ := h
  rw [State.keyOf, State.keyOf, hlen, hkey]

theorem SameIbuf.readBytes_eq {s s' : State} {n a k : Nat} (h : SameIbuf s s' n) (hn : a + k ≤ n) :
    Memory.readBytes s'.ibuf a k = Memory.readBytes s.ibuf a k :=
  Memory.readBytes_congr fun i hi => h (a + i) (by omega)

theorem SameIbuf.input_eq {s s' : State} (h : SameIbuf s s' s.len.toNat) (hlen : s'.len = s.len) :
    s'.input = s.input := by
  rw [State.input, hlen, h.readBytes_eq (Nat.zero_add _).le, State.input]

/-- An output that a unit left, with the same working registers. -/
theorem SameExit.doneSetWork {s s' : State} {out : List Byte} {cnt : Nat} {auth : Bool} {w : Work}
    (hobuf : s'.obuf = s.obuf) (herr : s'.err = s.err) :
    SameExit (.done out cnt auth (s.setWork w)) (.done out cnt auth (s'.setWork w)) :=
  .done out cnt auth _ _ hobuf herr

/-- The prologue touches nothing that a command reads. -/
theorem AgreeOnReads.prologue {s s' : State} {i : Instr} (h : AgreeOnReads s s' i) :
    AgreeOnReads s.prologue s'.prologue i := by
  cases i <;> exact h

section SameExit
variable {c : Config} {s s' : State} (hwork : s'.work = s.work) (hobuf : s'.obuf = s.obuf)
  (herr : s'.err = s.err)
include hwork hobuf herr

theorem keystreamBody_sameExit {data : State → List Byte} (hkey : SameKey s s')
    (hctr : s'.ctrblk = s.ctrblk) (hlen : s'.len = s.len) (hdata : data s' = data s) :
    SameExit (keystreamBody c data s) (keystreamBody c data s') := by
  have hcb : s'.counterOperand = s.counterOperand := by rw [State.counterOperand, hctr, State.counterOperand]
  rw [keystreamBody, keystreamBody, hkey.keyOf_eq, hcb, hlen, hdata, hwork]
  split_ifs with hfit
  · exact .fail ..
  · cases s.keyOf c with
    | none => exact .fail ..
    | some key => exact .doneSetWork hobuf herr

theorem gfMulBody_sameExit (hibuf : SameIbuf s s' 32) : SameExit (gfMulBody s) (gfMulBody s') := by
  have ha := hibuf.readBytes_eq (a := 0) (k := 16) (by decide)
  have hb := hibuf.readBytes_eq (a := 16) (k := 16) (by decide)
  rw [gfMulBody, gfMulBody, ha, hb, hwork]
  exact .doneSetWork hobuf herr

theorem fdDigestBody_sameExit (hlen : s'.len = s.len) (hin : s'.input = s.input) :
    SameExit (fdDigestBody c s) (fdDigestBody c s') := by
  rw [fdDigestBody, fdDigestBody, hlen, hin, hwork]
  split_ifs with hfit
  · exact .fail ..
  · exact .doneSetWork hobuf herr

theorem envOpenBody_sameExit (hkey : SameKey s s') (hlen : s'.len = s.len) (hin : s'.input = s.input) :
    SameExit (envOpenBody c s) (envOpenBody c s') := by
  rw [envOpenBody, envOpenBody, hkey.keyOf_eq, hlen, hin, hwork]
  split_ifs with hfit hmin
  · exact .fail ..
  · exact .fail ..
  · cases s.keyOf c with
    | none => exact .fail ..
    | some key =>
      simp only
      split_ifs with htag
      · exact .doneSetWork hobuf herr
      · exact .fail ..

theorem envSealBody_sameExit (hkey : SameKey s s') (hnonce : s'.nonce = s.nonce) (hlen : s'.len = s.len)
    (hin : s'.input = s.input) : SameExit (envSealBody c s) (envSealBody c s') := by
  rw [envSealBody, envSealBody, hkey.keyOf_eq, hnonce, hlen, hin, hwork]
  split_ifs with hfit
  · exact .fail ..
  · cases s.keyOf c with
    | none => exact .fail ..
    | some key => exact .doneSetWork hobuf herr

/-- States that agree on what a command reads take it to the same exit. -/
theorem commandBody_sameExit {i : Instr} (h : AgreeOnReads s s' i) :
    SameExit (commandBody c i s) (commandBody c i s') := by
  cases i with
  | clr => exact .done _ _ _ _ _ hobuf herr
  | ksGen =>
    obtain ⟨hkey, hctr, hlen⟩ := h
    exact keystreamBody_sameExit hwork hobuf herr (data := fun s => List.replicate s.len.toNat 0) hkey
      hctr hlen (by rw [hlen])
  | ksApply =>
    obtain ⟨hkey, hctr, hlen, hibuf⟩ := h
    exact keystreamBody_sameExit hwork hobuf herr hkey hctr hlen (hibuf.input_eq hlen)
  | gfMul => exact gfMulBody_sameExit hwork hobuf herr h
  | fdDigest =>
    obtain ⟨hlen, hibuf⟩ := h
    exact fdDigestBody_sameExit hwork hobuf herr hlen (hibuf.input_eq hlen)
  | envOpen =>
    obtain ⟨hkey, hlen, hibuf⟩ := h
    exact envOpenBody_sameExit hwork hobuf herr hkey hlen (hibuf.input_eq hlen)
  | envSeal =>
    obtain ⟨hkey, hnonce, hlen, hibuf⟩ := h
    exact envSealBody_sameExit hwork hobuf herr hkey hnonce hlen (hibuf.input_eq hlen)

end SameExit

/-- Settles O25: the same exit from both states, so the same results. -/
theorem resultsDependOnListedReadsOnly : Obligations.ResultsDependOnListedReadsOnly :=
  fun i s s' h => ⟨_, _, exec_eq_runCommand i s, exec_eq_runCommand i s',
    (commandBody_sameExit (s := s.prologue) (s' := s'.prologue) rfl rfl rfl h.prologue).sameResults⟩

end Machine
end Sys2Proof
end

section
/-! # The keystream generator (40_keystream.md)

The counter increment as bytes, the output of the unit byte by byte, and the two commands, which differ in
their data alone. -/

namespace Sys2Proof

/-- The bytes of a 32-bit number count as that number. -/
theorem intOf_be32 (x : Word32) : intOf (be32 x).toList = x.toNat := by
  have h0 := toNat_be32 x 0 (by decide)
  have h1 := toNat_be32 x 1 (by decide)
  have h2 := toNat_be32 x 2 (by decide)
  have h3 := toNat_be32 x 3 (by decide)
  have hlist : (be32 x).toList = [(be32 x)[0], (be32 x)[1], (be32 x)[2], (be32 x)[3]] := rfl
  rw [hlist]
  simp only [intOf, List.foldl_cons, List.foldl_nil]
  omega

/-- Adding one to a 32-bit number, byte by byte: the last byte always counts, and each byte before it
counts when every byte after it became zero. -/
theorem be32_add_one (x : Word32) :
    let b := be32 x
    let d := be32 (x + 1#32)
    d[3] = b[3] + 1 ∧ d[2] = (if d[3] = 0 then b[2] + 1 else b[2]) ∧
      d[1] = (if d[3] = 0 ∧ d[2] = 0 then b[1] + 1 else b[1]) ∧
      d[0] = (if d[3] = 0 ∧ d[2] = 0 ∧ d[1] = 0 then b[0] + 1 else b[0]) := by
  intro b d
  have hb (i : Nat) (hi : i < 4) : b[i].toNat = x.toNat / 2 ^ (8 * (3 - i)) % 256 := toNat_be32 x i hi
  have hd (i : Nat) (hi : i < 4) : d[i].toNat = (x.toNat + 1) % 2 ^ 32 / 2 ^ (8 * (3 - i)) % 256 :=
    toNat_be32 (x + 1#32) i hi
  simp only [← BitVec.toNat_inj, apply_ite BitVec.toNat, BitVec.toNat_add, BitVec.ofNat_eq_ofNat,
    BitVec.toNat_ofNat, hb, hd, Nat.reduceSub, Nat.reduceMul, Nat.reducePow, Nat.reduceMod]
  refine ⟨?_, ?_, ?_, ?_⟩
  · omega
  · split_ifs <;> omega
  · split_ifs <;> omega
  · split_ifs <;> omega

namespace Machine

/-! ### The counter increment (R111, R112) -/

/-- Bytes 12 to 15 of a block are those of the number in its low 32 bits. -/
theorem getElem_be32_low (c : Block) {i : Nat} (hi : i < 4) :
    (be32 (c.extractLsb' 0 32))[i] = Block.byte c (12 + i) := by
  obtain rfl | rfl | rfl | rfl : i = 0 ∨ i = 1 ∨ i = 2 ∨ i = 3 := by omega
  all_goals simp [be32, Block.byte]

/-- Bytes 0 to 11 never change. -/
theorem byte_inc32_of_lt (c : Block) {i : Nat} (hi : i < 12) : Block.byte (inc32 c) i = Block.byte c i := by
  rw [inc32, byte_append32 _ _ i (by omega), if_pos hi]
  apply BitVec.eq_of_getLsbD_eq
  intro j hj
  have hpos : 32 + (8 * (11 - i) + j) = 8 * (15 - i) + j := by omega
  have hin : 8 * (11 - i) + j < 96 := by omega
  rw [Block.getLsbD_byte c i j hj]
  simp [hj, hin, hpos]

/-- A block is its first 12 bytes and the number in its low 32 bits. -/
theorem bytes_eq_append_low (c : Block) :
    Block.bytes c = (Block.bytes c).take 12 ++ (be32 (c.extractLsb' 0 32)).toList := by
  apply List.ext_getElem (by simp)
  intro i hi _
  rw [Block.length_bytes] at hi
  by_cases h12 : i < 12
  · rw [List.getElem_append_left (by simp; omega), List.getElem_take]
  · have hlow := getElem_be32_low c (i := i - 12) (by omega)
    rw [List.getElem_append_right (by simp; omega)]
    simp [hlow, show 12 + (i - 12) = i by omega]

/-- The increment keeps the first 12 bytes and adds one to the number of the last four. -/
theorem bytes_inc32 (c : Block) :
    Block.bytes (inc32 c) = (Block.bytes c).take 12 ++ (be32 (c.extractLsb' 0 32 + 1#32)).toList := by
  have htake : (Block.bytes (inc32 c)).take 12 = (Block.bytes c).take 12 := by
    apply List.ext_getElem (by simp)
    intro i hi _
    have h12 : i < 12 := by simpa using hi
    simp [byte_inc32_of_lt c h12]
  rw [bytes_eq_append_low (inc32 c), htake, inc32_low]

/-- Bytes 12 to 15 count as the number in the low 32 bits. -/
theorem intOf_slice_bytes (c : Block) :
    intOf (slice (Block.bytes c) 12 16) = (c.extractLsb' 0 32).toNat := by
  have hslice : slice (Block.bytes c) 12 16 = (be32 (c.extractLsb' 0 32)).toList := by
    rw [bytes_eq_append_low c, slice]
    simp
  rw [hslice, intOf_be32]

/-- Settles O28: the carry is that of the number in the low 32 bits. -/
theorem incrementCountsInLastFourBytes : Obligations.IncrementCountsInLastFourBytes := by
  intro c b d
  have hcount : intOf (slice (Block.bytes (inc32 c)) 12 16) =
      (intOf (slice (Block.bytes c) 12 16) + 1) % 2 ^ 32 := by
    rw [intOf_slice_bytes, intOf_slice_bytes, inc32_low, BitVec.toNat_add]
    rfl
  have hcarry := be32_add_one (c.extractLsb' 0 32)
  simp only [← inc32_low, getElem_be32_low] at hcarry
  exact ⟨fun i hi => byte_inc32_of_lt c hi, hcount, hcarry⟩

/-- Settles O29: the number in the low 32 bits goes from all ones to zero. -/
theorem incrementWrapKeepsNonce : Obligations.IncrementWrapKeepsNonce := by
  intro n hn
  have hbytes : Block.bytes (Block.ofBytes (n ++ [0xff, 0xff, 0xff, 0xff])) = n ++ [0xff, 0xff, 0xff, 0xff] :=
    Block.bytes_ofBytes _ (by simp [hn])
  have hlow : (Block.ofBytes (n ++ [0xff, 0xff, 0xff, 0xff])).extractLsb' 0 32 = 0xffffffff := by
    apply BitVec.eq_of_toNat_eq
    rw [← intOf_slice_bytes, hbytes, slice, List.drop_left' hn]
    rfl
  rw [bytes_inc32, hbytes, hlow, List.take_left' hn]
  rfl

/-! ### The output of the unit (R113, R117) -/

theorem keystreamUnit_of_ne_nil (c : Config) (key : List Byte) (cb : Block) {data : List Byte} (w : Work)
    (hdata : data ≠ []) : keystreamUnit c key cb data w =
      keystreamLoop c key (ceil16 data.length) data { w with ctr := cb } :=
  if_neg (mt List.length_eq_zero_iff.mp hdata)

/-- Settles O30: without data the loop is not entered, and with data it has a block of fuel for every 16
bytes. -/
theorem keystreamByteFormula : Obligations.KeystreamByteFormula := by
  intro c key cb data w r last
  by_cases hdata : data = []
  · subst hdata
    exact ⟨rfl, rfl, fun _ => rfl, fun h => absurd rfl h, fun i hi => absurd hi i.not_lt_zero⟩
  · obtain ⟨hlen, hcnt, hwork, hbyte⟩ := keystreamLoop_spec c key (ceil16 data.length) data
      { w with ctr := cb } (List.length_pos_iff.mpr hdata) (by rw [ceil16]; omega)
    rw [← keystreamUnit_of_ne_nil c key cb w hdata] at hlen hcnt hwork hbyte
    exact ⟨hlen, hcnt, fun hnil => absurd hnil hdata, fun _ => hwork, hbyte⟩

/-- Byte `i` of a keystream application (R113). -/
theorem getElem?_keystreamApply (c : Config) (key : List Byte) (cb : Block) {data : List Byte} {i : Nat}
    (hi : i < data.length) : (keystreamApply c key cb data)[i]? =
      some (data[i] ^^^ Block.byte (c.cipher key (inc32^[i / 16] cb)) (i % 16)) := by
  obtain ⟨-, -, -, -, hbyte⟩ := keystreamByteFormula c key cb data Work.zero
  exact hbyte i hi

@[simp] theorem length_keystreamApply (c : Config) (key : List Byte) (cb : Block) (data : List Byte) :
    (keystreamApply c key cb data).length = data.length := length_keystreamUnit ..

/-- Settles O31: each byte is xored with the same byte twice. -/
theorem keystreamTwiceIsIdentity : Obligations.KeystreamTwiceIsIdentity := by
  intro c key cb data
  apply List.ext_getElem?
  intro i
  by_cases hi : i < data.length
  · obtain ⟨hi', hfirst⟩ := List.getElem?_eq_some_iff.mp (getElem?_keystreamApply c key cb hi)
    rw [getElem?_keystreamApply c key cb hi', hfirst, BitVec.xor_assoc, BitVec.xor_self, BitVec.xor_zero,
      List.getElem?_eq_getElem hi]
  · rw [List.getElem?_eq_none (by simpa using hi), List.getElem?_eq_none (by simpa using hi)]

/-! ### The commands (R120, R121) -/

theorem runCommand_eq_finish {body : State → BodyResult} {s : State} {r : BodyResult}
    (h : body s.prologue = r) : runCommand body s = .next r.finish := by
  rw [runCommand, h]

/-- A body that fails before any unit has run. -/
theorem runCommand_failsEarly {body : State → BodyResult} {s : State} {e : CmdError}
    (h : body s.prologue = .fail e 0 s.prologue) :
    ∃ t, runCommand body s = .next t ∧ FailsWith s t e 0 :=
  ⟨_, runCommand_eq_finish h, prologue_failExit_fails s e⟩

section Outcome
variable {data : State → List Byte} {s : State}

theorem runCommand_keystreamBody_succeeds (c : Config) (hdata : (data s.prologue).length = s.len.toNat)
    (hlen : s.len.toNat ≤ c.bufSize) (hkey : c.keySizeOk s.keylen.toNat = true) :
    ∃ t, runCommand (keystreamBody c data) s = .next t ∧
      Succeeds s t
        (keystreamApply c (s.key.toList.take s.keylen.toNat) (Block.ofBytes s.ctrblk.toList)
          (data s.prologue))
        (ceil16 s.len.toNat) false := by
  have hbuf := c.bufSize_le
  have hcnt := ceil16_le_of_le_bufSize hlen
  have hbody : keystreamBody c data s.prologue =
      .done (keystreamApply c (s.key.toList.take s.keylen.toNat) s.counterOperand (data s.prologue))
        (ceil16 s.len.toNat) false (s.prologue.setWork (keystreamUnit c (s.key.toList.take s.keylen.toNat)
          s.counterOperand (data s.prologue) Work.zero).work) := by
    rw [keystreamBody, if_neg (by simpa using hlen), keyOf_eq_some (s := s.prologue) hkey]
    simp only [cnt_keystreamUnit, hdata]
    rfl
  exact ⟨_, runCommand_eq_finish hbody,
    epilogue_succeeds _ _ _ ((SameOperands.prologue s).setWork _) rfl rfl
      (by rw [length_keystreamApply]; omega) (by omega)⟩

theorem runCommand_keystreamBody_badLength (c : Config) (data : State → List Byte)
    (hlen : c.bufSize < s.len.toNat) :
    ∃ t, runCommand (keystreamBody c data) s = .next t ∧ FailsWith s t .badLength 0 :=
  runCommand_failsEarly (if_pos hlen)

theorem runCommand_keystreamBody_invalidKey (c : Config) (data : State → List Byte)
    (hlen : s.len.toNat ≤ c.bufSize) (hkey : c.keySizeOk s.keylen.toNat = false) :
    ∃ t, runCommand (keystreamBody c data) s = .next t ∧ FailsWith s t .invalidKey 0 := by
  have hbody : keystreamBody c data s.prologue = .fail .invalidKey 0 s.prologue := by
    rw [keystreamBody, if_neg (by simpa using hlen), keyOf_eq_none (s := s.prologue) hkey]
  exact runCommand_failsEarly hbody

end Outcome

/-- Settles O17: the data is LEN zero bytes. -/
theorem ksGenOutcome : Obligations.KsGenOutcome :=
  ⟨rfl, fun _ => ⟨runCommand_keystreamBody_succeeds _ List.length_replicate,
    runCommand_keystreamBody_badLength _ _, runCommand_keystreamBody_invalidKey _ _⟩⟩

/-- Settles O18: the data is the first LEN bytes of IBUF. -/
theorem ksApplyOutcome : Obligations.KsApplyOutcome :=
  ⟨rfl, fun s => ⟨runCommand_keystreamBody_succeeds _ (length_input s.prologue),
    runCommand_keystreamBody_badLength _ _, runCommand_keystreamBody_invalidKey _ _⟩⟩

end Machine
end Sys2Proof
end

section
/-! # The field unit (41_field_digest.md)

The shift step as a number and as bytes; the product as the xor of shifted copies of its second operand,
from which its linearity and its zero and one follow; and the digest as a fold of products. -/

namespace Sys2Proof.Machine

/-! ### The shift step (R141) -/

/-- The bit that a shift step moves out is the parity of the number. -/
theorem getLsbD_zero_eq_decide_odd (v : Block) : v.getLsbD 0 = decide (v.toNat % 2 = 1) := by
  rw [← BitVec.testBit_toNat, Nat.testBit_zero]

theorem toNat_shiftStep (v : Block) :
    (shiftStep v).toNat = (v.toNat / 2) ^^^ (v.toNat % 2 * 0xE1 * 2 ^ 120) := by
  rw [shiftStep, BitVec.toNat_xor, BitVec.toNat_ushiftRight, Nat.shiftRight_one, getLsbD_zero_eq_decide_odd]
  congr 1
  rcases Nat.mod_two_eq_zero_or_one v.toNat with h | h
  · rw [h]; rfl
  · rw [h]; rfl

/-- The low bit of a byte, moved to its high end. -/
theorem getLsbD_and_one_shiftLeft_seven (x : Byte) {j : Nat} (hj : j < 8) :
    ((x &&& 1) <<< 7).getLsbD j = (decide (j = 7) && x.getLsbD 0) := by
  obtain rfl | hj7 : j = 7 ∨ j < 7 := by omega
  · simp
  · simp [hj7, hj7.ne]

/-- A logical shift of the whole block lets a zero in at the top of byte 0. -/
theorem byte_zero_ushiftRight_one (v : Block) : Block.byte (v >>> 1) 0 = Block.byte v 0 >>> 1 := by
  apply BitVec.eq_of_getLsbD_eq
  intro j hj
  rw [Block.getLsbD_byte _ _ _ hj, BitVec.getLsbD_ushiftRight, BitVec.getLsbD_ushiftRight]
  obtain rfl | hj7 : j = 7 ∨ j < 7 := by omega
  · rw [BitVec.getLsbD_of_ge _ _ (by decide), BitVec.getLsbD_of_ge _ _ (by decide)]
  · rw [Block.getLsbD_byte _ _ _ (by omega), Nat.add_left_comm]

/-- The low bit of each byte goes to the top of the next. -/
theorem byte_ushiftRight_one (v : Block) {i : Nat} (h1 : 1 ≤ i) (hi : i < 16) :
    Block.byte (v >>> 1) i = (Block.byte v i >>> 1) ||| ((Block.byte v (i - 1) &&& 1) <<< 7) := by
  apply BitVec.eq_of_getLsbD_eq
  intro j hj
  rw [Block.getLsbD_byte _ _ _ hj, BitVec.getLsbD_or, BitVec.getLsbD_ushiftRight,
    BitVec.getLsbD_ushiftRight, getLsbD_and_one_shiftLeft_seven _ hj]
  obtain rfl | hj7 : j = 7 ∨ j < 7 := by omega
  · rw [BitVec.getLsbD_of_ge (Block.byte v i) _ (by decide), Block.getLsbD_byte _ _ _ (by decide),
      show 1 + (8 * (15 - i) + 7) = 8 * (15 - (i - 1)) + 0 by omega]
    rfl
  · rw [Block.getLsbD_byte _ _ _ (by omega), Nat.add_left_comm]
    simp [hj7.ne]

/-- The block that a shift step xors in has its one nonzero byte at the front. -/
theorem byte_feedback : ∀ i < 16, Block.byte (0xE1#128 <<< 120) i = if i = 0 then 0xE1 else 0 := by
  decide

/-- The bit that a shift step moves out is the low bit of byte 15. -/
theorem getLsbD_zero_iff_byte (v : Block) : v.getLsbD 0 = true ↔ Block.byte v 15 &&& 1 = 1 := by
  have hbyte : (Block.byte v 15).getLsbD 0 = v.getLsbD 0 := Block.getLsbD_byte v 15 0 (by decide)
  rw [← hbyte]
  generalize Block.byte v 15 = x
  revert x
  decide

theorem byte_zero_shiftStep (v : Block) : Block.byte (shiftStep v) 0 =
    (Block.byte v 0 >>> 1) ^^^ (if Block.byte v 15 &&& 1 = 1 then 0xE1 else 0) := by
  rw [shiftStep, Block.byte_xor, byte_zero_ushiftRight_one, apply_ite (Block.byte · 0),
    byte_feedback 0 (by decide)]
  simp only [getLsbD_zero_iff_byte]
  rfl

theorem byte_shiftStep (v : Block) {i : Nat} (h1 : 1 ≤ i) (hi : i < 16) : Block.byte (shiftStep v) i =
    (Block.byte v i >>> 1) ||| ((Block.byte v (i - 1) &&& 1) <<< 7) := by
  have hzero : Block.byte (if v.getLsbD 0 then 0xE1#128 <<< 120 else 0) i = 0 := by
    split_ifs
    · rw [byte_feedback i hi, if_neg (by omega)]
    · simp [Block.byte]
  rw [shiftStep, Block.byte_xor, hzero, byte_ushiftRight_one v h1 hi]
  exact BitVec.xor_zero

/-- Settles O33: the feedback reaches byte 0 alone. -/
theorem shiftStepByBytes : Obligations.ShiftStepByBytes :=
  fun v => ⟨toNat_shiftStep v, byte_zero_shiftStep v, fun _ => byte_shiftStep v⟩

/-! ### The product (R142) -/

/-- What step `k` of the multiply adds to the result: the copy of `b` shifted `k` times, if bit `k` of
`a` is set. -/
def shiftedCopy (a b : Block) (k : Nat) : Block := if a.getMsbD k then shiftStep^[k] b else 0

/-- The result register after `n` steps of the multiply. -/
def shiftedCopies (a b : Block) : Nat → Block
  | 0 => 0
  | n + 1 => shiftedCopies a b n ^^^ shiftedCopy a b n

theorem xor_shiftedCopy (z a b : Block) (k : Nat) :
    z ^^^ shiftedCopy a b k = if a.getMsbD k then z ^^^ shiftStep^[k] b else z := by
  rw [shiftedCopy]
  split_ifs
  · rfl
  · exact BitVec.xor_zero

theorem foldl_shiftedCopy (a b : Block) (n : Nat) :
    (List.range n).foldl (fun z k => if a.getMsbD k then z ^^^ shiftStep^[k] b else z) 0 =
      shiftedCopies a b n := by
  induction n with
  | zero => rfl
  | succ n ih =>
    rw [List.range_succ, List.foldl_concat, ih, ← xor_shiftedCopy, shiftedCopies]

/-- The registers after `n` steps of the multiply: Z has the first `n` copies, V the next. -/
theorem foldl_mulStep (a b : Block) (w : Work) (n : Nat) :
    (List.range n).foldl
        (fun w k => { w with z := if a.getMsbD k then w.z ^^^ w.v else w.z, v := shiftStep w.v })
        { w with z := 0, v := b } =
      { w with z := shiftedCopies a b n, v := shiftStep^[n] b } := by
  induction n with
  | zero => rfl
  | succ n ih =>
    rw [List.range_succ, List.foldl_concat, ih, ← xor_shiftedCopy, shiftedCopies, Function.iterate_succ_apply']

theorem gfMul_eq_shiftedCopies (a b : Block) : gfMul a b = shiftedCopies a b 128 := by
  rw [gfMul, mulUnit_flat, foldl_mulStep]

/-- The whole unit: the product in Z, the copy shifted 128 times in V, the other registers as they were. -/
theorem mulUnit_eq (a b : Block) (w : Work) :
    mulUnit a b w = { w with z := gfMul a b, v := shiftStep^[128] b } := by
  rw [mulUnit_flat, foldl_mulStep, gfMul_eq_shiftedCopies]

/-- Settles O34: both folds add one shifted copy per step. -/
theorem gfMulIsXorOfShiftedCopies : Obligations.GfMulIsXorOfShiftedCopies :=
  fun a b => ⟨(gfMul_eq_shiftedCopies a b).trans (foldl_shiftedCopy a b 128).symm, mulUnit_eq a b⟩

/-! ### Linearity (R150 (c)) -/

theorem shiftStep_iterate_xor (a b : Block) (k : Nat) :
    shiftStep^[k] (a ^^^ b) = shiftStep^[k] a ^^^ shiftStep^[k] b := by
  induction k generalizing a b with
  | zero => rfl
  | succ k ih => rw [Function.iterate_succ_apply, shiftStep_xor, ih]; rfl

theorem shiftedCopy_xor_right (a b c : Block) (k : Nat) :
    shiftedCopy a (b ^^^ c) k = shiftedCopy a b k ^^^ shiftedCopy a c k := by
  rw [shiftedCopy, shiftedCopy, shiftedCopy, shiftStep_iterate_xor]
  split_ifs
  · rfl
  · rfl

theorem shiftedCopy_xor_left (a b c : Block) (k : Nat) :
    shiftedCopy (a ^^^ b) c k = shiftedCopy a c k ^^^ shiftedCopy b c k := by
  rw [shiftedCopy, shiftedCopy, shiftedCopy, BitVec.getMsbD_xor]
  cases a.getMsbD k <;> cases b.getMsbD k <;> simp

theorem shiftedCopies_xor_right (a b c : Block) (n : Nat) :
    shiftedCopies a (b ^^^ c) n = shiftedCopies a b n ^^^ shiftedCopies a c n := by
  induction n with
  | zero => exact BitVec.xor_self.symm
  | succ n ih =>
    simp only [shiftedCopies, ih, shiftedCopy_xor_right]
    ac_rfl

theorem shiftedCopies_xor_left (a b c : Block) (n : Nat) :
    shiftedCopies (a ^^^ b) c n = shiftedCopies a c n ^^^ shiftedCopies b c n := by
  induction n with
  | zero => exact BitVec.xor_self.symm
  | succ n ih =>
    simp only [shiftedCopies, ih, shiftedCopy_xor_left]
    ac_rfl

theorem gfMul_xor_right (a b c : Block) : gfMul a (b ^^^ c) = gfMul a b ^^^ gfMul a c := by
  simp only [gfMul_eq_shiftedCopies, shiftedCopies_xor_right]

theorem gfMul_xor_left (a b c : Block) : gfMul (a ^^^ b) c = gfMul a c ^^^ gfMul b c := by
  simp only [gfMul_eq_shiftedCopies, shiftedCopies_xor_left]

/-- Settles O35: each shifted copy is linear in both operands, and so is their xor. -/
theorem gfMulIsLinear : Obligations.GfMulIsLinear :=
  fun a b c => ⟨gfMul_xor_right a b c, gfMul_xor_left b c a⟩

/-! ### Zero and one (R150 (a), (b)) -/

/-- Zero is the xor of a block with itself, and the product is linear. -/
@[simp] theorem gfMul_zero_left (a : Block) : gfMul 0 a = 0 := by
  have h := gfMul_xor_left a a a
  rwa [BitVec.xor_self, BitVec.xor_self] at h

@[simp] theorem gfMul_zero_right (a : Block) : gfMul a 0 = 0 := by
  have h := gfMul_xor_right a a a
  rwa [BitVec.xor_self, BitVec.xor_self] at h

/-- Above the last bit a shift step is a halving. -/
theorem shiftStep_twoPow {i : Nat} (hi : i + 1 < 128) :
    shiftStep (BitVec.twoPow 128 (i + 1)) = BitVec.twoPow 128 i := by
  apply BitVec.eq_of_toNat_eq
  have hpow : (BitVec.twoPow 128 (i + 1)).toNat = 2 * 2 ^ i := by
    rw [BitVec.toNat_twoPow_of_lt hi, Nat.pow_succ']
  rw [toNat_shiftStep, hpow, BitVec.toNat_twoPow_of_lt (by omega), Nat.mul_mod_right,
    Nat.mul_div_cancel_left _ (by decide), Nat.zero_mul, Nat.xor_zero]

/-- The copies of the one are the single bits, most significant first. -/
theorem shiftStep_iterate_one {k : Nat} (hk : k < 128) :
    shiftStep^[k] (BitVec.twoPow 128 127) = BitVec.twoPow 128 (127 - k) := by
  induction k with
  | zero => rfl
  | succ k ih =>
    rw [Function.iterate_succ_apply', ih (by omega), show 127 - k = 127 - (k + 1) + 1 by omega,
      shiftStep_twoPow (by omega)]

theorem getMsbD_twoPow_sub {k : Nat} (hk : k < 128) (i : Nat) :
    (BitVec.twoPow 128 (127 - k)).getMsbD i = decide (i = k) := by
  have hpos : 128 - (127 - k) - 1 = k := by omega
  rw [BitVec.getMsbD_twoPow, hpos, decide_eq_true (by omega), Bool.true_and]

theorem getMsbD_shiftedCopy_one (a : Block) {k : Nat} (hk : k < 128) (i : Nat) :
    (shiftedCopy a (BitVec.twoPow 128 127) k).getMsbD i = (decide (i = k) && a.getMsbD i) := by
  rw [shiftedCopy, shiftStep_iterate_one hk]
  by_cases hik : i = k
  · subst hik
    cases a.getMsbD i <;> simp [getMsbD_twoPow_sub hk]
  · split_ifs <;> simp [getMsbD_twoPow_sub hk, hik]

/-- The first `n` copies of the one put the first `n` bits of the scanned operand together. -/
theorem getMsbD_shiftedCopies_one (a : Block) {n : Nat} (hn : n ≤ 128) (i : Nat) :
    (shiftedCopies a (BitVec.twoPow 128 127) n).getMsbD i = (decide (i < n) && a.getMsbD i) := by
  induction n with
  | zero => simp [shiftedCopies]
  | succ n ih =>
    rw [shiftedCopies, BitVec.getMsbD_xor, ih (by omega), getMsbD_shiftedCopy_one a (by omega)]
    rcases lt_trichotomy i n with h | rfl | h
    · simp [h, h.ne, Nat.lt_succ_of_lt h]
    · simp
    · simp [h.ne', h.not_gt, Nat.not_lt.mpr h]

theorem gfMul_one_right (a : Block) : gfMul a (1#128 <<< 127) = a := by
  apply BitVec.eq_of_getMsbD_eq
  intro i hi
  rw [gfMul_eq_shiftedCopies, ← BitVec.twoPow_eq, getMsbD_shiftedCopies_one a le_rfl, decide_eq_true hi,
    Bool.true_and]

/-- Only bit 0 of the one is set, and the copy for that bit is not shifted. -/
theorem shiftedCopies_one_left (a : Block) (n : Nat) :
    shiftedCopies (BitVec.twoPow 128 127) a (n + 1) = a := by
  have hbit : ∀ k, (BitVec.twoPow 128 127).getMsbD k = decide (k = 0) :=
    getMsbD_twoPow_sub (k := 0) (by decide)
  induction n with
  | zero =>
    rw [shiftedCopies, xor_shiftedCopy, hbit, if_pos (by simp)]
    exact BitVec.zero_xor
  | succ n ih => rw [shiftedCopies, ih, xor_shiftedCopy, hbit, if_neg (by simp)]

theorem gfMul_one_left (a : Block) : gfMul (1#128 <<< 127) a = a := by
  rw [gfMul_eq_shiftedCopies, ← BitVec.twoPow_eq, shiftedCopies_one_left]

/-- Settles O36: zero by linearity, and one by its single bit. -/
theorem gfMulZeroAndOne : Obligations.GfMulZeroAndOne :=
  fun a => ⟨gfMul_zero_left a, gfMul_zero_right a, gfMul_one_right a, gfMul_one_left a⟩

/-! ### The blocks of a digest (R144, R145) -/

@[simp] theorem length_blocks (data : List Byte) : (blocks data).length = ceil16 data.length := by
  simp [blocks]

/-- Byte `i` of a slice of 16 bytes, zero where the sequence has ended. -/
theorem getD_slice_16 (s : List Byte) (a : Nat) {i : Nat} (hi : i < 16) :
    (slice s a (a + 16)).getD i 0 = s.getD (a + i) 0 := by
  rw [slice, Nat.add_sub_cancel_left, List.getD_eq_getElem?_getD, List.getElem?_take, if_pos hi,
    List.getElem?_drop, List.getD_eq_getElem?_getD]

/-- Settles O37: a block is a slice of 16 bytes, and beyond the data both read as zero. -/
theorem blocksPadTheLastOne : Obligations.BlocksPadTheLastOne := by
  intro data
  refine ⟨length_blocks data, fun k hk i hi => ?_⟩
  have hblock : (blocks data)[k] = Block.ofBytes (slice data (16 * k) (16 * k + 16)) := by simp [blocks]
  rw [hblock, Block.byte_ofBytes _ _ hi, getD_slice_16 _ _ hi]
  split_ifs with h
  · exact List.getD_eq_getElem _ _ h
  · exact List.getD_eq_default _ _ (by omega)

theorem lenBlock_of_lt (c : Config) {n : Nat} (hn : n < 2 ^ 29) :
    lenBlock c n = 0#96 ++ BitVec.ofNat 32 (8 * n) := if_pos hn

/-- Settles O38: below 2^29 the bit length fits the low 32 bits. -/
theorem lenBlockEncodesTheBitLength : Obligations.LenBlockEncodesTheBitLength := by
  intro c n hn
  rw [lenBlock_of_lt c hn]
  refine ⟨fun i hi => ?_, ?_⟩
  · rw [byte_append32 _ _ i (by omega), if_pos hi]
    simp
  · rw [intOf_slice_bytes, extractLsb'_append32, BitVec.toNat_ofNat]
    omega

/-! ### The digest (R146) -/

/-- Absorbing a block: the product of ACC xor the block by the subkey. -/
theorem absorb_eq (h b : Block) (w : Work) : absorb h w b =
    { w with acc := gfMul (w.acc ^^^ b) h, z := gfMul (w.acc ^^^ b) h, v := shiftStep^[128] h } := by
  simp only [absorb, mulUnit_eq]

/-- Absorbing blocks in order folds them into ACC and leaves CTR and S alone. -/
theorem foldl_absorb (h : Block) (bs : List Block) (w : Work) :
    (bs.foldl (absorb h) w).acc = bs.foldl (fun acc b => gfMul (acc ^^^ b) h) w.acc ∧
      (bs.foldl (absorb h) w).ctr = w.ctr ∧ (bs.foldl (absorb h) w).s = w.s := by
  induction bs generalizing w with
  | nil => exact ⟨rfl, rfl, rfl⟩
  | cons b bs ih =>
    rw [List.foldl_cons, List.foldl_cons, absorb_eq]
    exact ih _

/-- Settles O39: ACC starts from zero, whatever it held. -/
theorem digestFoldsBlocksThenLength : Obligations.DigestFoldsBlocksThenLength :=
  fun _ h _ w => foldl_absorb h _ { w with acc := 0 }

theorem digest_eq_foldl (c : Config) (h : Block) (data : List Byte) : digest c h data =
    (blocks data ++ [lenBlock c data.length]).foldl (fun acc b => gfMul (acc ^^^ b) h) 0 := by
  obtain ⟨hacc, -, -⟩ := digestFoldsBlocksThenLength c h data Work.zero
  exact hacc

/-- The only block of no data is the length block, and it is zero. -/
theorem digest_nil (c : Config) (h : Block) : digest c h [] = 0 := by
  have hlen : lenBlock c ([] : List Byte).length = 0 := by
    rw [lenBlock_of_lt c (by decide)]
    rfl
  rw [digest_eq_foldl, hlen]
  exact gfMul_zero_left h

/-- The last product is by the subkey zero. -/
theorem digest_zero_subkey (c : Config) (data : List Byte) : digest c 0 data = 0 := by
  rw [digest_eq_foldl, List.foldl_concat, gfMul_zero_right]

/-- Settles O40: zero absorbs, and products by one change nothing. -/
theorem digestDegenerateCases : Obligations.DigestDegenerateCases := by
  refine fun c => ⟨digest_nil c, digest_zero_subkey c, fun data => ?_⟩
  simp only [digest_eq_foldl, gfMul_one_right]

/-! ### The commands (R151, R152) -/

/-- Settles O19: the body of `GF.MUL` has one exit. -/
theorem gfMulOutcome : Obligations.GfMulOutcome := by
  refine ⟨rfl, fun s => ⟨_, runCommand_eq_finish rfl, ?_⟩⟩
  exact epilogue_succeeds _ _ _ ((SameOperands.prologue s).setWork _) rfl rfl
    (by rw [Block.length_bytes]; decide) (by decide)

theorem runCommand_fdDigestBody_succeeds (c : Config) {s : State} (hlen : s.len.toNat ≤ c.bufSize) :
    ∃ t, runCommand (fdDigestBody c) s = .next t ∧
      Succeeds s t (Block.bytes (digest c c.fixedSubkey s.input)) 0 false := by
  have hbody : fdDigestBody c s.prologue = .done (Block.bytes (digest c c.fixedSubkey s.input)) 0 false
      (s.prologue.setWork (digestUnit c c.fixedSubkey s.input Work.zero)) :=
    if_neg (Nat.not_lt.mpr hlen)
  exact ⟨_, runCommand_eq_finish hbody,
    epilogue_succeeds _ _ _ ((SameOperands.prologue s).setWork _) rfl rfl
      (by rw [Block.length_bytes]; decide) (by decide)⟩

/-- Settles O20: the length bound is the only check. -/
theorem fdDigestOutcome : Obligations.FdDigestOutcome :=
  ⟨rfl, fun _ => ⟨runCommand_fdDigestBody_succeeds _, fun hlen => runCommand_failsEarly (if_pos hlen)⟩⟩

end Sys2Proof.Machine
end

section
/-! # The functions of the envelope controller (42_envelope.md)

The counter blocks of an envelope; what `Seal` and `Open` compute, as functions of the parts of the
envelope; and how a change of the tag or of one ciphertext block is detected. -/

namespace Sys2Proof.Machine

/-! ### Counter blocks (R171, R178) -/

theorem bytes_counterBlock {nonce : List Byte} (hn : nonce.length = 12) (d : Byte) :
    Block.bytes (counterBlock nonce d) = nonce ++ [0x00, 0x00, 0x00, d] :=
  Block.bytes_ofBytes _ (by simp [hn])

/-- The number in the low 32 bits of a counter block is its discriminator. -/
theorem toNat_low_counterBlock {nonce : List Byte} (hn : nonce.length = 12) (d : Byte) :
    ((counterBlock nonce d).extractLsb' 0 32).toNat = d.toNat := by
  rw [← intOf_slice_bytes, bytes_counterBlock hn, slice, List.drop_left' hn]
  simp [intOf]

/-- Settles O41: the last four bytes of the block are those of the discriminator. -/
theorem counterBlockLayout : Obligations.CounterBlockLayout := by
  intro nonce d hn
  refine ⟨bytes_counterBlock hn d, ?_⟩
  rw [intOf_slice_bytes, toNat_low_counterBlock hn]

theorem low_iterate_inc32 (c : Block) (k : Nat) :
    (inc32^[k] c).extractLsb' 0 32 = c.extractLsb' 0 32 + BitVec.ofNat 32 k := by
  induction k with
  | zero => exact (BitVec.add_zero _).symm
  | succ k ih => rw [Function.iterate_succ_apply', inc32_low, ih, BitVec.add_assoc, ← BitVec.ofNat_add]

theorem take_bytes_iterate_inc32 (c : Block) (k : Nat) :
    (Block.bytes (inc32^[k] c)).take 12 = (Block.bytes c).take 12 := by
  induction k with
  | zero => rfl
  | succ k ih => rw [Function.iterate_succ_apply', bytes_inc32, List.take_left' (by simp), ih]

/-- The counter of payload block `k` (R178). -/
theorem low_payload_counter {nonce : List Byte} (hn : nonce.length = 12) (k : Nat) :
    (inc32^[k] (counterBlock nonce 2)).extractLsb' 0 32 = BitVec.ofNat 32 (2 + k) := by
  have hlow := toNat_low_counterBlock hn 2
  apply BitVec.eq_of_toNat_eq
  rw [low_iterate_inc32, BitVec.toNat_add, hlow, BitVec.toNat_ofNat, BitVec.toNat_ofNat]
  simp

/-- Settles O42: the counters of an envelope differ in their low 32 bits. -/
theorem envelopeCountersNeverCollide : Obligations.EnvelopeCountersNeverCollide := by
  intro nonce k hn hk
  have htag := toNat_low_counterBlock hn 1
  have hlow := low_payload_counter hn k
  refine ⟨?_, fun heq => ?_, fun j hj heq => ?_⟩
  · rw [bytes_eq_append_low, hlow, take_bytes_iterate_inc32, bytes_counterBlock hn, List.take_left' hn]
  · rw [← heq, hlow, BitVec.toNat_ofNat, Nat.mod_eq_of_lt (by omega)] at htag
    simp at htag
    omega
  · rw [← heq, low_payload_counter hn j] at hlow
    have hnum := congrArg BitVec.toNat hlow
    rw [BitVec.toNat_ofNat, BitVec.toNat_ofNat, Nat.mod_eq_of_lt (by omega),
      Nat.mod_eq_of_lt (by omega)] at hnum
    omega

/-! ### The units started from any working registers (R174, R175) -/

/-- The output of the generator does not depend on what the working registers held. -/
theorem out_keystreamUnit (c : Config) (key : List Byte) (cb : Block) (data : List Byte) (w : Work) :
    (keystreamUnit c key cb data w).out = keystreamApply c key cb data := by
  obtain ⟨hlen, -, -, -, hbyte⟩ := keystreamByteFormula c key cb data w
  apply List.ext_getElem?
  intro i
  by_cases hi : i < data.length
  · rw [hbyte i hi, getElem?_keystreamApply c key cb hi]
  · rw [List.getElem?_eq_none (by simpa using hi), List.getElem?_eq_none (by simpa using hi)]

theorem acc_digestUnit (c : Config) (h : Block) (data : List Byte) (w : Work) :
    (digestUnit c h data w).acc = digest c h data := by
  obtain ⟨hacc, -, -⟩ := digestFoldsBlocksThenLength c h data w
  rw [hacc, digest_eq_foldl]

/-- The tag of a ciphertext under a key and a nonce. -/
def expectedTag (c : Config) (key nonce ct : List Byte) : List Byte :=
  keystreamApply c key (counterBlock nonce tagDiscriminator) (Block.bytes (digest c c.fixedSubkey ct))

@[simp] theorem length_expectedTag (c : Config) (key nonce ct : List Byte) :
    (expectedTag c key nonce ct).length = 16 := by simp [expectedTag]

theorem out_tagUnit (c : Config) (key nonce ct : List Byte) (w : Work) :
    (tagUnit c key nonce ct w).out = expectedTag c key nonce ct := by
  rw [tagUnit, out_keystreamUnit, acc_digestUnit, expectedTag]

/-- The payload of an envelope, encrypted or decrypted. -/
def payloadApply (c : Config) (key nonce data : List Byte) : List Byte :=
  keystreamApply c key (counterBlock nonce payloadDiscriminator) data

/-- `Seal` by its three parts (R175). -/
theorem sealEnvelope_eq (c : Config) (key nonce pt : List Byte) : sealEnvelope c key nonce pt =
    nonce ++ payloadApply c key nonce pt ++ expectedTag c key nonce (payloadApply c key nonce pt) := by
  simp only [sealEnvelope, sealUnit, out_tagUnit, out_keystreamUnit, payloadApply]

/-- `Open` by the parts of the envelope (R174). -/
theorem openEnvelope_eq (c : Config) (key env : List Byte) : openEnvelope c key env =
    if expectedTag c key (split env).nonce (split env).ct = (split env).tag then
      some (payloadApply c key (split env).nonce (split env).ct) else none := by
  simp only [openEnvelope, openUnit, out_tagUnit, out_keystreamUnit, payloadApply, decide_eq_true_eq]

theorem openEnvelope_isSome_iff (c : Config) (key env : List Byte) : (openEnvelope c key env).isSome = true ↔
    expectedTag c key (split env).nonce (split env).ct = (split env).tag := by
  rw [openEnvelope_eq]
  split_ifs with htag
  · exact iff_of_true rfl htag
  · exact iff_of_false nofun htag

/-! ### The parts of an envelope (R170, R173) -/

theorem Envelope.ext {e e' : Envelope} (hnonce : e.nonce = e'.nonce) (hct : e.ct = e'.ct)
    (htag : e.tag = e'.tag) : e = e' := by
  cases e
  cases e'
  exact (Envelope.mk.injEq ..).mpr ⟨hnonce, hct, htag⟩

theorem split_nonce (env : List Byte) : (split env).nonce = env.take 12 := rfl

theorem split_ct (env : List Byte) : (split env).ct = (env.drop 12).take (env.length - 28) := by
  have hslice : (split env).ct = slice env 12 (env.length - 16) := rfl
  rw [hslice, slice, Nat.sub_sub]

theorem split_tag (env : List Byte) : (split env).tag = env.drop (env.length - 16) := by
  have hslice : (split env).tag = slice env (env.length - 16) env.length := rfl
  rw [hslice, slice, List.take_of_length_le (by rw [List.length_drop])]

theorem split_append {nonce ct tag : List Byte} (hn : nonce.length = 12) (ht : tag.length = 16) :
    split (nonce ++ ct ++ tag) = ⟨nonce, ct, tag⟩ := by
  have hlen : (nonce ++ ct ++ tag).length = (nonce ++ ct).length + 16 := by rw [List.length_append, ht]
  have hct : (nonce ++ ct).length + 16 - 28 = ct.length := by rw [List.length_append, hn]; omega
  refine Envelope.ext ?_ ?_ ?_
  · rw [split_nonce, List.append_assoc, List.take_left' hn]
  · rw [split_ct, hlen, hct, List.append_assoc, List.drop_left' hn, List.take_left]
  · rw [split_tag, hlen, Nat.add_sub_cancel, List.drop_left]

/-- The parts put together again. -/
theorem append_split {env : List Byte} (hmin : 28 ≤ env.length) :
    (split env).nonce ++ (split env).ct ++ (split env).tag = env := by
  have hct : 12 + (env.length - 28) = env.length - 16 := by omega
  rw [split_nonce, split_ct, split_tag, ← List.take_add, hct, List.take_append_drop]

theorem eq_of_split_eq {env env' : List Byte} (hmin : 28 ≤ env.length) (hmin' : 28 ≤ env'.length)
    (h : split env' = split env) : env' = env := by
  rw [← append_split hmin, ← append_split hmin', h]

theorem getElem?_split_ct (env : List Byte) (i : Nat) :
    (split env).ct[i]? = if i < env.length - 28 then env[12 + i]? else none := by
  rw [split_ct, List.getElem?_take, List.getElem?_drop]

theorem split_nonce_congr {env env' : List Byte} (h : ∀ i < 12, env'[i]? = env[i]?) :
    (split env').nonce = (split env).nonce := by
  apply List.ext_getElem?
  intro i
  rw [split_nonce, split_nonce, List.getElem?_take, List.getElem?_take]
  split_ifs with hi
  · exact h i hi
  · rfl

theorem split_ct_congr {env env' : List Byte} (hlen : env'.length = env.length)
    (h : ∀ i, 12 ≤ i → i < env.length - 16 → env'[i]? = env[i]?) : (split env').ct = (split env).ct := by
  apply List.ext_getElem?
  intro i
  rw [getElem?_split_ct, getElem?_split_ct, hlen]
  split_ifs with hi
  · exact h _ (by omega) (by omega)
  · rfl

theorem split_tag_congr {env env' : List Byte} (hlen : env'.length = env.length)
    (h : ∀ i, env.length - 16 ≤ i → env'[i]? = env[i]?) : (split env').tag = (split env).tag := by
  apply List.ext_getElem?
  intro i
  rw [split_tag, split_tag, List.getElem?_drop, List.getElem?_drop, hlen]
  exact h _ (by omega)

/-- Settles O43: the generator and the digest start afresh in each of their runs. -/
theorem sealedEnvelopeLayout : Obligations.SealedEnvelopeLayout := by
  intro c key nonce pt hn ct tag
  have hparts : sealEnvelope c key nonce pt = nonce ++ ct ++ tag := sealEnvelope_eq c key nonce pt
  have htag : tag.length = 16 := length_expectedTag c key nonce ct
  refine ⟨hparts, length_keystreamApply .., htag, ?_⟩
  rw [hparts, split_append hn htag]

/-- Settles O44: the parts that `Split` cuts are those of the statement. -/
theorem openComparesTheExpectedTag : Obligations.OpenComparesTheExpectedTag := by
  intro c key env _ nonce ct tag expected
  rw [openEnvelope_eq, split_nonce, split_ct, split_tag]
  rfl

/-- Settles O45: the tag is computed from the same ciphertext, and the payload keystream is applied
twice. -/
theorem openInvertsSeal : Obligations.OpenInvertsSeal := by
  intro c key nonce pt hn
  rw [openEnvelope_eq, sealEnvelope_eq, split_append hn (length_expectedTag ..), if_pos rfl, payloadApply,
    payloadApply, keystreamTwiceIsIdentity]

/-! ### Changed envelopes (R183) -/

/-- Two envelopes that open and agree up to the tag have the same tag. -/
theorem eq_of_open_of_tag_change {c : Config} {key env env' : List Byte} (hmin : 28 ≤ env.length)
    (hlen : env'.length = env.length) (hbefore : ∀ i < env.length - 16, env'[i]? = env[i]?)
    (h : (openEnvelope c key env).isSome = true) (h' : (openEnvelope c key env').isSome = true) :
    env' = env := by
  have hnonce : (split env').nonce = (split env).nonce := split_nonce_congr fun i hi => hbefore i (by omega)
  have hct : (split env').ct = (split env).ct := split_ct_congr hlen fun i _ hi => hbefore i hi
  rw [openEnvelope_isSome_iff] at h h'
  rw [hnonce, hct, h] at h'
  exact eq_of_split_eq hmin (hlen ▸ hmin) (Envelope.ext hnonce hct h'.symm)

theorem keystreamApply_injective (c : Config) (key : List Byte) (cb : Block) :
    Function.Injective (keystreamApply c key cb) :=
  Function.LeftInverse.injective (keystreamTwiceIsIdentity c key cb)

/-- Equal tags under one key and nonce come of equal digests. -/
theorem digest_eq_of_expectedTag_eq {c : Config} {key nonce ct ct' : List Byte}
    (h : expectedTag c key nonce ct' = expectedTag c key nonce ct) :
    digest c c.fixedSubkey ct' = digest c c.fixedSubkey ct :=
  Block.bytes_inj (keystreamApply_injective c key _ h)

/-- A linear map that kills only zero is injective. -/
theorem gfMul_left_injective {h : Block} (hker : ∀ x, gfMul x h = 0 → x = 0) :
    Function.Injective fun x => gfMul x h := by
  intro a b hab
  have hzero : gfMul (a ^^^ b) h = 0 := by
    rw [gfMul_xor_left, show gfMul a h = gfMul b h from hab, BitVec.xor_self]
    rfl
  exact BitVec.xor_eq_zero_iff.mp (hker _ hzero)

section Fold
variable {α β : Type} {f : α → β → α} (hacc : ∀ b, Function.Injective fun a => f a b)
include hacc

theorem foldl_injective (l : List β) : Function.Injective fun a => l.foldl f a := by
  induction l with
  | nil => exact Function.injective_id
  | cons b l ih => exact ih.comp (hacc b)

/-- Lists that differ in at most one place and fold to the same value are equal. -/
theorem eq_of_foldl_eq (hitem : ∀ a, Function.Injective (f a)) {l l' : List β} {k : Nat} {a : α}
    (hlen : l'.length = l.length) (hk : ∀ j, j ≠ k → l'[j]? = l[j]?)
    (h : l'.foldl f a = l.foldl f a) : l' = l := by
  induction l generalizing l' k a with
  | nil => exact List.eq_nil_of_length_eq_zero hlen
  | cons b l ih =>
    obtain ⟨b', l', rfl⟩ := List.exists_cons_of_length_eq_add_one hlen
    cases k with
    | zero =>
      obtain rfl : l' = l := List.ext_getElem? fun j => hk (j + 1) (by omega)
      have hb : f a b' = f a b := foldl_injective hacc l' h
      rw [hitem a hb]
    | succ k =>
      obtain rfl : b' = b := by simpa using hk 0 (by omega)
      rw [ih (k := k) (by simpa using hlen) (fun j hj => hk (j + 1) (by omega)) h]

end Fold

/-- Absorbing a block loses nothing of ACC and nothing of the block, if the subkey kills only zero. -/
theorem absorb_injective {h : Block} (hker : ∀ x, gfMul x h = 0 → x = 0) :
    (∀ b, Function.Injective fun acc => gfMul (acc ^^^ b) h) ∧
      ∀ acc, Function.Injective fun b => gfMul (acc ^^^ b) h :=
  ⟨fun _ _ _ he => (BitVec.xor_left_inj _).mp (gfMul_left_injective hker he),
    fun _ _ _ he => (BitVec.xor_right_inj _).mp (gfMul_left_injective hker he)⟩

/-- A digest detects a change within one block. -/
theorem blocks_eq_of_digest_eq {c : Config} {h : Block} (hker : ∀ x, gfMul x h = 0 → x = 0)
    {data data' : List Byte} {k : Nat} (hlen : data'.length = data.length)
    (hk : ∀ j, j ≠ k → (blocks data')[j]? = (blocks data)[j]?)
    (hd : digest c h data' = digest c h data) : blocks data' = blocks data := by
  obtain ⟨hacc, hitem⟩ := absorb_injective hker
  rw [digest_eq_foldl, digest_eq_foldl, hlen, List.foldl_concat, List.foldl_concat] at hd
  exact eq_of_foldl_eq hacc hitem (by rw [length_blocks, length_blocks, hlen]) hk (hacc _ hd)

theorem getElem?_blocks (data : List Byte) (j : Nat) : (blocks data)[j]? =
    if j < ceil16 data.length then some (Block.ofBytes (slice data (16 * j) (16 * j + 16))) else none := by
  split_ifs with hj <;> simp [blocks, hj]

/-- Blocks away from a change are the same. -/
theorem getElem?_blocks_congr {data data' : List Byte} {j : Nat} (hlen : data'.length = data.length)
    (h : ∀ i, i / 16 = j → data'[i]? = data[i]?) : (blocks data')[j]? = (blocks data)[j]? := by
  have hslice : slice data' (16 * j) (16 * j + 16) = slice data (16 * j) (16 * j + 16) := by
    apply List.ext_getElem?
    intro i
    rw [slice, slice, List.getElem?_take, List.getElem?_take, List.getElem?_drop, List.getElem?_drop]
    split_ifs with hi
    · exact h _ (by omega)
    · rfl
  rw [getElem?_blocks, getElem?_blocks, hlen, hslice]

/-- The blocks of data of a known length hold all of it. -/
theorem eq_of_blocks_eq {data data' : List Byte} (hlen : data'.length = data.length)
    (h : blocks data' = blocks data) : data' = data := by
  apply List.ext_getElem hlen
  intro i hi' hi
  have hin : i / 16 < (blocks data).length := by rw [length_blocks, ceil16]; omega
  have hbyte := (blocksPadTheLastOne data).2 (i / 16) hin (i % 16) (by omega)
  have hbyte' := (blocksPadTheLastOne data').2 (i / 16) (h ▸ hin) (i % 16) (by omega)
  simp only [h, Nat.div_add_mod, hi, hi', dite_true] at hbyte hbyte'
  rw [← hbyte', hbyte]

/-- Settles O47: if both open, the tags are equal, so the digests are, so the ciphertexts are. -/
theorem ciphertextChangeDetected : Obligations.CiphertextChangeDetected := by
  intro c key env env' k hker hmin hlen hends hblock hne hopen
  by_contra hopen'
  rw [← ne_eq, Option.ne_none_iff_isSome] at hopen'
  have hnonce : (split env').nonce = (split env).nonce := split_nonce_congr fun i hi => hends i (.inl hi)
  have htag : (split env').tag = (split env).tag := split_tag_congr hlen fun i hi => hends i (.inr hi)
  have hctlen : (split env').ct.length = (split env).ct.length := by
    rw [length_split_ct, length_split_ct, hlen]
  have hctblock (i : Nat) (hi : i / 16 ≠ k) : (split env').ct[i]? = (split env).ct[i]? := by
    rw [getElem?_split_ct, getElem?_split_ct, hlen, hblock (12 + i) (by rwa [Nat.add_sub_cancel_left])]
  rw [openEnvelope_isSome_iff] at hopen hopen'
  rw [hnonce, htag, ← hopen] at hopen'
  have hct : (split env').ct = (split env).ct :=
    eq_of_blocks_eq hctlen (blocks_eq_of_digest_eq hker hctlen
      (fun j hj => getElem?_blocks_congr hctlen fun i hi => hctblock i (hi ▸ hj))
      (digest_eq_of_expectedTag_eq hopen'))
  exact hne (eq_of_split_eq hmin (hlen ▸ hmin) (Envelope.ext hnonce hct htag))

end Sys2Proof.Machine
end

section
/-! # The commands of the envelope controller (42_envelope.md)

The exits of `ENV.OPEN` and `ENV.SEAL`; what an `ENV.OPEN` that ended in a given state says of its
envelope; and the repetition of any command. -/

namespace Sys2Proof.Machine

/-! ### `ENV.OPEN` (R179) -/

/-- `KEY[0..KEYLEN)` (40_keystream.md R118). -/
def State.keyBytes (s : State) : List Byte := s.key.toList.take s.keylen.toNat

/-- The evaluations of an `ENV.OPEN` fit ECNT. -/
theorem openCount_lt {c : Config} {s : State} (hmax : s.len.toNat ≤ c.bufSize) :
    ceil16 (s.len.toNat - 28) + 1 < 2 ^ 32 := by
  have hcnt := ceil16_le_of_le_bufSize ((Nat.sub_le _ 28).trans hmax)
  omega

section OpenOutcome
variable {c : Config} {s : State} (hmin : 28 ≤ s.len.toNat) (hmax : s.len.toNat ≤ c.bufSize)
include hmin hmax

/-- The run that decides how an `ENV.OPEN` past its checks ends. -/
theorem envOpenBody_of_checks (hkey : c.keySizeOk s.keylen.toNat = true) : envOpenBody c s.prologue =
    let r := openUnit c s.keyBytes s.input Work.zero
    if r.tagOk then .done r.pt r.cnt true (s.prologue.setWork r.work)
    else .fail .authenticationFailure r.cnt (s.prologue.setWork r.work) := by
  rw [envOpenBody, State.prologue_len, if_neg (Nat.not_lt.mpr hmax), if_neg (Nat.not_lt.mpr hmin),
    keyOf_eq_some (s := s.prologue) hkey]
  rfl

theorem runCommand_envOpenBody_opens (hkey : c.keySizeOk s.keylen.toNat = true) {pt : List Byte}
    (hopen : openEnvelope c s.keyBytes s.input = some pt) :
    ∃ t, runCommand (envOpenBody c) s = .next t ∧
      Succeeds s t pt (ceil16 (s.len.toNat - 28) + 1) true ∧ t.olen.toNat = s.len.toNat - 28 := by
  have hbody := envOpenBody_of_checks hmin hmax hkey
  have hbuf := c.bufSize_le
  have hlen : (openUnit c s.keyBytes s.input Work.zero).pt.length = s.len.toNat - 28 := by simp
  rw [openEnvelope, Option.ite_none_right_eq_some, Option.some.injEq] at hopen
  obtain ⟨htag, rfl⟩ := hopen
  simp only [htag, if_true, cnt_openUnit, length_input] at hbody
  have hsucc := epilogue_succeeds (openUnit c s.keyBytes s.input Work.zero).pt _ true
    ((SameOperands.prologue s).setWork (openUnit c s.keyBytes s.input Work.zero).work) rfl rfl
    (by rw [hlen]; omega) (openCount_lt hmax)
  exact ⟨_, runCommand_eq_finish hbody, hsucc, hsucc.olen.trans hlen⟩

theorem runCommand_envOpenBody_rejects (hkey : c.keySizeOk s.keylen.toNat = true)
    (hopen : openEnvelope c s.keyBytes s.input = none) :
    ∃ t, runCommand (envOpenBody c) s = .next t ∧
      FailsWith s t .authenticationFailure (ceil16 (s.len.toNat - 28) + 1) := by
  have hbody := envOpenBody_of_checks hmin hmax hkey
  have htag : (openUnit c s.keyBytes s.input Work.zero).tagOk = false := by
    simpa [openEnvelope] using hopen
  simp only [htag, Bool.false_eq_true, if_false, cnt_openUnit, length_input] at hbody
  exact ⟨_, runCommand_eq_finish hbody, failExit_fails _ _ ((SameOperands.prologue s).setWork _)
    (openCount_lt hmax) fun h => absurd rfl h⟩

theorem runCommand_envOpenBody_invalidKey (hkey : c.keySizeOk s.keylen.toNat = false) :
    ∃ t, runCommand (envOpenBody c) s = .next t ∧ FailsWith s t .invalidKey 0 := by
  have hbody : envOpenBody c s.prologue = .fail .invalidKey 0 s.prologue := by
    rw [envOpenBody, State.prologue_len, if_neg (Nat.not_lt.mpr hmax), if_neg (Nat.not_lt.mpr hmin),
      keyOf_eq_none (s := s.prologue) hkey]
  exact runCommand_failsEarly hbody

end OpenOutcome

theorem runCommand_envOpenBody_invalidEnvelope (c : Config) {s : State} (hmin : s.len.toNat < 28) :
    ∃ t, runCommand (envOpenBody c) s = .next t ∧ FailsWith s t .invalidEnvelope 0 := by
  have hbuf := c.le_bufSize
  have hmax : s.len.toNat ≤ c.bufSize := by omega
  have hbody : envOpenBody c s.prologue = .fail .invalidEnvelope 0 s.prologue := by
    rw [envOpenBody, State.prologue_len, if_neg (Nat.not_lt.mpr hmax)]
    exact if_pos hmin
  exact runCommand_failsEarly hbody

/-- Settles O21: the checks in order, and past them the compare. -/
theorem envOpenOutcome : Obligations.EnvOpenOutcome :=
  ⟨rfl, fun _ => ⟨fun _ hmin hmax hkey => runCommand_envOpenBody_opens hmin hmax hkey,
    runCommand_envOpenBody_rejects, fun hlong => runCommand_failsEarly (if_pos hlong),
    runCommand_envOpenBody_invalidEnvelope _, runCommand_envOpenBody_invalidKey⟩⟩

/-- How an `ENV.OPEN` from `s` can have ended in `t`. -/
inductive EnvOpenCase (s t : State) : Prop
  | opens (hmin : 28 ≤ s.len.toNat) (hmax : s.len.toNat ≤ Config.chosen.bufSize)
      (hkey : Config.chosen.keySizeOk s.keylen.toNat = true) (pt : List Byte)
      (hopen : openEnvelope Config.chosen s.keyBytes s.input = some pt)
      (h : Succeeds s t pt (ceil16 (s.len.toNat - 28) + 1) true)
  | rejects (h : FailsWith s t .authenticationFailure (ceil16 (s.len.toNat - 28) + 1))
  | failsEarly (e : CmdError) (he : e ≠ .authenticationFailure) (h : FailsWith s t e 0)

/-- A command has one outcome. -/
theorem of_exec_eq_next {i : Instr} {s t : State} {P : State → Prop} (ht : exec i s = .next t)
    (h : ∃ t', exec i s = .next t' ∧ P t') : P t := by
  obtain ⟨t', ht', hP⟩ := h
  obtain rfl : t = t' := Host.Outcome.next.inj (ht.symm.trans ht')
  exact hP

theorem envOpenCase_of_next {s t : State} (ht : exec .envOpen s = .next t) : EnvOpenCase s t := by
  obtain ⟨-, hall⟩ := envOpenOutcome
  obtain ⟨hopens, hrejects, hlong, hshort, hbadKey⟩ := hall s
  by_cases hmax : s.len.toNat ≤ Config.chosen.bufSize
  · by_cases hmin : 28 ≤ s.len.toNat
    · cases hkey : Config.chosen.keySizeOk s.keylen.toNat with
      | false => exact .failsEarly .invalidKey nofun (of_exec_eq_next ht (hbadKey hmin hmax hkey))
      | true =>
        cases hopen : openEnvelope Config.chosen s.keyBytes s.input with
        | none => exact .rejects (of_exec_eq_next ht (hrejects hmin hmax hkey hopen))
        | some pt =>
          exact .opens hmin hmax hkey pt hopen (of_exec_eq_next ht (hopens pt hmin hmax hkey hopen)).1
    · exact .failsEarly .invalidEnvelope nofun (of_exec_eq_next ht (hshort (Nat.lt_of_not_le hmin)))
  · exact .failsEarly .badLength nofun (of_exec_eq_next ht (hlong (Nat.lt_of_not_le hmax)))

theorem CmdError.code_injective : Function.Injective CmdError.code := by
  intro e e'
  cases e <;> cases e' <;> decide

/-- Only a failed compare leaves the code of `AuthenticationFailure`. -/
theorem envOpen_rejects_of_err {s t : State} (ht : exec .envOpen s = .next t)
    (herr : t.err = CmdError.authenticationFailure.code) :
    FailsWith s t .authenticationFailure (ceil16 (s.len.toNat - 28) + 1) := by
  cases envOpenCase_of_next ht with
  | opens _ _ _ pt _ h =>
    obtain ⟨-, -, hzero⟩ := h.status
    exact absurd (hzero.symm.trans herr) (by decide)
  | rejects h => exact h
  | failsEarly e he h =>
    obtain ⟨-, -, hcode⟩ := h.status
    exact absurd (CmdError.code_injective (hcode.symm.trans herr)) he

/-- Settles O27: a failed compare leaves results that only LEN determines. -/
theorem failedOpenRevealsNothing : Obligations.FailedOpenRevealsNothing := by
  intro s s' t t' hlen ht ht' herr herr'
  have h := envOpen_rejects_of_err ht herr
  have h' := envOpen_rejects_of_err ht' herr'
  rw [hlen] at h'
  exact ⟨h.sameResults h', h.obuf⟩

theorem SameKey.keyBytes_eq {s s' : State} (h : SameKey s s') : s'.keyBytes = s.keyBytes := by
  obtain ⟨hlen, hkey⟩ := h
  rw [State.keyBytes, hlen, hkey, State.keyBytes]

theorem getElem?_input (s : State) (i : Nat) :
    s.input[i]? = if i < s.len.toNat then some (Memory.read s.ibuf i) else none := by
  rw [State.input]
  split_ifs with hi
  · rw [List.getElem?_eq_getElem (by simpa using hi), Memory.getElem_readBytes, Nat.zero_add]
  · exact List.getElem?_eq_none (by simpa using hi)

/-- Only an envelope that opens leaves AUTH set. -/
theorem envOpen_opens_of_auth {s t : State} (ht : exec .envOpen s = .next t) (hauth : t.auth = true) :
    28 ≤ s.len.toNat ∧ s.len.toNat ≤ Config.chosen.bufSize ∧
      Config.chosen.keySizeOk s.keylen.toNat = true ∧
      (openEnvelope Config.chosen s.keyBytes s.input).isSome = true := by
  cases envOpenCase_of_next ht with
  | opens hmin hmax hkey pt hopen _ => exact ⟨hmin, hmax, hkey, Option.isSome_of_mem hopen⟩
  | rejects h | failsEarly _ _ h =>
    obtain ⟨-, hclear, -⟩ := h.status
    exact absurd (hauth.symm.trans hclear) nofun

/-- Settles O46: two envelopes that open and agree up to the tag are the same. -/
theorem tagChangeAlwaysDetected : Obligations.TagChangeAlwaysDetected := by
  rintro s s' t ht hauth hkey hlen hbefore ⟨a, -, ha, hne⟩
  obtain ⟨hmin, hmax, hsize, hopen⟩ := envOpen_opens_of_auth ht hauth
  have hinput : ∀ i < s.len.toNat - 16, s'.input[i]? = s.input[i]? := by
    intro i hi
    rw [getElem?_input, getElem?_input, hlen, hbefore i hi]
  have hinput_ne : s'.input ≠ s.input := by
    intro heq
    have hat := congrArg (·[a]?) heq
    simp only [getElem?_input, hlen, ha, if_true] at hat
    exact hne (Option.some.inj hat)
  have hreject : openEnvelope Config.chosen s'.keyBytes s'.input = none := by
    rw [hkey.keyBytes_eq]
    by_contra hopen'
    refine hinput_ne (eq_of_open_of_tag_change ?_ ?_ ?_ hopen
      (Option.ne_none_iff_isSome.mp hopen'))
    · rwa [length_input]
    · rw [length_input, length_input, hlen]
    · rwa [length_input]
  rw [← hlen] at hmin hmax ⊢
  exact runCommand_envOpenBody_rejects hmin hmax (hkey.1 ▸ hsize) hreject

/-! ### `ENV.SEAL` (R180) -/

section SealOutcome
variable {c : Config} {s : State} (hfit : s.len.toNat ≤ c.bufSize - 28)
include hfit

theorem runCommand_envSealBody_seals (hkey : c.keySizeOk s.keylen.toNat = true) :
    ∃ t, runCommand (envSealBody c) s = .next t ∧
      Succeeds s t (sealEnvelope c s.keyBytes s.nonce.toList s.input) (ceil16 s.len.toNat + 1) false ∧
      t.olen.toNat = s.len.toNat + 28 := by
  have hbuf := c.bufSize_le
  have hmin := c.le_bufSize
  have hcnt := ceil16_le_of_le_bufSize (c := c) (n := s.len.toNat) (by omega)
  have hlen : (sealEnvelope c s.keyBytes s.nonce.toList s.input).length = s.len.toNat + 28 := by
    rw [sealEnvelope, length_sealUnit, Vector.length_toList, length_input]
    omega
  have hbody : envSealBody c s.prologue =
      .done (sealEnvelope c s.keyBytes s.nonce.toList s.input) (ceil16 s.len.toNat + 1) false
        (s.prologue.setWork (sealUnit c s.keyBytes s.nonce.toList s.input Work.zero).work) := by
    rw [envSealBody, State.prologue_len, if_neg (Nat.not_lt.mpr hfit), keyOf_eq_some (s := s.prologue) hkey]
    simp only [cnt_sealUnit, length_input]
    rfl
  have hsucc := epilogue_succeeds (sealEnvelope c s.keyBytes s.nonce.toList s.input)
    (ceil16 s.len.toNat + 1) false ((SameOperands.prologue s).setWork
      (sealUnit c s.keyBytes s.nonce.toList s.input Work.zero).work) rfl rfl
    (by rw [hlen]; omega) (by omega)
  exact ⟨_, runCommand_eq_finish hbody, hsucc, hsucc.olen.trans hlen⟩

theorem runCommand_envSealBody_invalidKey (hkey : c.keySizeOk s.keylen.toNat = false) :
    ∃ t, runCommand (envSealBody c) s = .next t ∧ FailsWith s t .invalidKey 0 := by
  have hbody : envSealBody c s.prologue = .fail .invalidKey 0 s.prologue := by
    rw [envSealBody, State.prologue_len, if_neg (Nat.not_lt.mpr hfit), keyOf_eq_none (s := s.prologue) hkey]
  exact runCommand_failsEarly hbody

end SealOutcome

/-- Settles O22: the length bound first, then the key check. -/
theorem envSealOutcome : Obligations.EnvSealOutcome :=
  ⟨rfl, fun _ => ⟨runCommand_envSealBody_seals, fun hlong => runCommand_failsEarly (if_pos hlong),
    runCommand_envSealBody_invalidKey⟩⟩

/-- Settles O53: the input of the second command is the envelope that the first one sealed. -/
theorem sealThenOpenRestoresPlaintext : Obligations.SealThenOpenRestoresPlaintext := by
  intro s hfit hsize
  obtain ⟨t, ht, hseal, holen⟩ := runCommand_envSealBody_seals (by omega) hsize
  refine ⟨t, ht, fun u hkey hlen hcopy => ?_⟩
  have hulen : u.len.toNat = s.len.toNat + 28 := by rw [hlen, holen]
  have hinput : u.input = sealEnvelope Config.chosen s.keyBytes s.nonce.toList s.input :=
    calc u.input = Memory.readBytes t.obuf 0 t.olen.toNat := by
          rw [State.input, hlen]
          exact Memory.readBytes_congr fun i hi => by simpa using hcopy i hi
      _ = _ := by rw [hseal.olen, hseal.output]
  have hopen : openEnvelope Config.chosen u.keyBytes u.input = some s.input := by
    rw [hkey.keyBytes_eq, hinput]
    exact openInvertsSeal _ _ _ _ s.nonce.length_toList
  obtain ⟨v, hv, hsucc, -⟩ := runCommand_envOpenBody_opens (by omega) (by omega) (hkey.1 ▸ hsize) hopen
  rw [hulen, Nat.add_sub_cancel] at hsucc
  exact ⟨v, hv, hsucc⟩

/-! ### Repeated commands (R182) -/

section State
variable (c : Config) (s : State)

theorem keystreamBody_state (data : State → List Byte) :
    ∃ w, (keystreamBody c data s).state = s.setWork w := by
  rw [keystreamBody]
  split_ifs with hlen
  · exact ⟨s.work, rfl⟩
  · cases s.keyOf c with
    | none => exact ⟨s.work, rfl⟩
    | some key => exact ⟨_, rfl⟩

theorem fdDigestBody_state : ∃ w, (fdDigestBody c s).state = s.setWork w := by
  rw [fdDigestBody]
  split_ifs with hlen
  · exact ⟨s.work, rfl⟩
  · exact ⟨_, rfl⟩

theorem envOpenBody_state : ∃ w, (envOpenBody c s).state = s.setWork w := by
  rw [envOpenBody]
  split_ifs with hlen hmin
  · exact ⟨s.work, rfl⟩
  · exact ⟨s.work, rfl⟩
  · cases s.keyOf c with
    | none => exact ⟨s.work, rfl⟩
    | some key =>
      simp only
      split_ifs with htag
      · exact ⟨_, rfl⟩
      · exact ⟨_, rfl⟩

theorem envSealBody_state : ∃ w, (envSealBody c s).state = s.setWork w := by
  rw [envSealBody]
  split_ifs with hlen
  · exact ⟨s.work, rfl⟩
  · cases s.keyOf c with
    | none => exact ⟨s.work, rfl⟩
    | some key => exact ⟨_, rfl⟩

/-- Every body but that of `CLR` passes its state on, but for the working registers. Unlike
`commandBody_sameOperands` this speaks of the buffer itself, not of its bytes. -/
theorem commandBody_state {i : Instr} (hi : i ≠ .clr) : ∃ w, (commandBody c i s).state = s.setWork w := by
  cases i with
  | clr => exact absurd rfl hi
  | ksGen => exact keystreamBody_state c s fun s => List.replicate s.len.toNat 0
  | ksApply => exact keystreamBody_state c s _
  | gfMul => exact ⟨_, rfl⟩
  | fdDigest => exact fdDigestBody_state c s
  | envOpen => exact envOpenBody_state c s
  | envSeal => exact envSealBody_state c s

end State

theorem SameOperands.agreeOnReads {s t : State} (h : SameOperands s t) (i : Instr) : AgreeOnReads s t i := by
  have hkey : SameKey s t := ⟨h.keylen, by rw [h.key]⟩
  have hibuf (n : Nat) : SameIbuf s t n := fun a _ => h.ibuf a
  cases i with
  | clr => exact trivial
  | ksGen => exact ⟨hkey, h.ctrblk, h.len⟩
  | ksApply => exact ⟨hkey, h.ctrblk, h.len, hibuf _⟩
  | gfMul => exact hibuf _
  | fdDigest => exact ⟨h.len, hibuf _⟩
  | envOpen => exact ⟨hkey, h.len, hibuf _⟩
  | envSeal => exact ⟨hkey, h.nonce, h.len, hibuf _⟩

/-- The next prologue after either exit: DONE alone tells that a command was run. -/
theorem BodyResult.prologue_finish {r : BodyResult} {s : State} {w : Work}
    (h : r.state = s.prologue.setWork w) : r.finish.prologue = { s.prologue with done := true } := by
  cases r with
  | fail e cnt u =>
    obtain rfl : u = s.prologue.setWork w := h
    rfl
  | done out cnt auth u =>
    obtain rfl : u = s.prologue.setWork w := h
    rfl

/-- Neither exit depends on DONE or on the working registers. -/
theorem SameExit.finish_eq {r r' : BodyResult} {s : State} {w w' : Work} (h : SameExit r r')
    (hr : r.state = s.setWork w) (hr' : r'.state = State.setWork w' { s with done := true }) :
    r'.finish = r.finish := by
  cases h with
  | fail e cnt u u' =>
    obtain rfl : u = s.setWork w := hr
    obtain rfl : u' = State.setWork w' { s with done := true } := hr'
    rfl
  | done out cnt auth u u' =>
    obtain rfl : u = s.setWork w := hr
    obtain rfl : u' = State.setWork w' { s with done := true } := hr'
    rfl

/-- A body run again on what it left asks for the same exit, and so leaves the same state. -/
theorem commandBody_again (c : Config) {i : Instr} (hi : i ≠ .clr) (s : State) :
    let t := (commandBody c i s.prologue).finish
    (commandBody c i t.prologue).finish = t := by
  intro t
  obtain ⟨w, hstate⟩ := commandBody_state c s.prologue hi
  obtain ⟨w', hstate'⟩ := commandBody_state c t.prologue hi
  have hops : SameOperands s t := (commandBody_sameOperands (SameOperands.prologue s) hi).finish
  have hexit : SameExit (commandBody c i s.prologue) (commandBody c i t.prologue) :=
    commandBody_sameExit (s := s.prologue) (s' := t.prologue) rfl rfl rfl (hops.agreeOnReads i).prologue
  have hdone : t.prologue = { s.prologue with done := true } := BodyResult.prologue_finish hstate
  exact hexit.finish_eq hstate (hstate'.trans (congrArg (State.setWork w') hdone))

/-- Settles O26: `CLR` leaves zeros again, and any other command its own operands. -/
theorem repeatedCommandGivesTheSameState : Obligations.RepeatedCommandGivesTheSameState := by
  intro i s
  refine ⟨_, exec_eq_runCommand i s, (exec_eq_runCommand i _).trans (congrArg Host.Outcome.next ?_)⟩
  by_cases hi : i = .clr
  · subst hi
    rfl
  · exact commandBody_again Config.chosen hi s

end Sys2Proof.Machine
end

section
/-! # The host port and `CLR` (43_system.md)

Every register of the map is a run of `n` addresses from a base, so an access to it is one step at the
location of its byte `i` (R201, R202). A register of several bytes is written byte by byte. -/

namespace Sys2Proof

/-! ### The bytes of a 32-bit number (00_scope.md R14) -/

theorem getElem_be32_eq_ofNat (x : Word32) (i : Fin 4) :
    (be32 x)[i] = BitVec.ofNat 8 (x.toNat / 256 ^ (3 - i.val)) := by
  apply BitVec.eq_of_toNat_eq
  have hpow : 256 ^ (3 - i.val) = 2 ^ (8 * (3 - i.val)) := (pow_mul 2 8 (3 - i.val)).symm
  rw [BitVec.toNat_ofNat, hpow]
  exact toNat_be32 x i i.isLt

theorem getElem_be32_eq_extractLsb' (x : Word32) {i : Nat} (hi : i < 4) :
    (be32 x)[i] = x.extractLsb' (8 * (3 - i)) 8 := by
  obtain rfl | rfl | rfl | rfl : i = 0 ∨ i = 1 ∨ i = 2 ∨ i = 3 := by omega
  all_goals rfl

theorem be32_injective : Function.Injective be32 := Function.LeftInverse.injective word32_be32

/-- The mask of the low byte. -/
theorem getLsbD_byteMask (k : Nat) : (0xFF#32).getLsbD k = decide (k < 8) := by
  have hmask : 0xFF#32 = (BitVec.allOnes 8).setWidth 32 := rfl
  rw [hmask, BitVec.getLsbD_setWidth, BitVec.getLsbD_allOnes, ← Bool.decide_and]
  exact decide_eq_decide.mpr (by omega)

/-- Replacing byte `i` of a 32-bit number, as masking it out and putting the new byte in its place: bit by
bit of each byte `j`, which for `j ≠ i` lies wholly below or wholly above both the mask and the new byte. -/
theorem word32_set_be32 (x : Word32) (i : Fin 4) (v : Byte) : word32 ((be32 x).set i v) =
    (x &&& ~~~(0xFF#32 <<< (8 * (3 - i.val)))) ||| (v.setWidth 32 <<< (8 * (3 - i.val))) := by
  apply be32_injective
  rw [be32_word32]
  apply Vector.ext
  intro j hj
  rw [Vector.getElem_set, getElem_be32_eq_extractLsb' x hj, getElem_be32_eq_extractLsb' _ hj]
  apply BitVec.eq_of_getLsbD_eq
  intro k hk
  have hbit : 8 * (3 - j) + k < 32 := by omega
  by_cases hij : i.val = j
  · simp [hij, hk, hbit, getLsbD_byteMask]
  · rw [if_neg hij]
    rcases Nat.lt_or_ge (8 * (3 - j) + k) (8 * (3 - i.val)) with hbelow | hfrom
    · simp [hk, hbit, hbelow]
    · have habove : 8 ≤ 8 * (3 - j) + k - 8 * (3 - i.val) := by omega
      simp [hk, getLsbD_byteMask, habove]
      omega

namespace Machine

/-- STATUS as its three fields in place (10_state.md R28). -/
theorem status_eq_or (s : State) : s.status =
    (if s.done then 0x80 else 0) ||| (if s.auth then 0x10 else 0) ||| s.err.setWidth 8 := by
  rw [State.status]
  generalize s.done = done, s.auth = auth, s.err = err
  revert done auth err
  decide

/-- STATUS after a success without AUTH. -/
theorem status_of_success {s : State} (hd : s.done = true) (ha : s.auth = false) (he : s.err = 0) :
    s.status = 0x80 := by
  rw [State.status, hd, ha, he]
  rfl

/-! ### The addresses of the register map (10_state.md R40) -/

/-- Byte `i` of a register of `n` bytes at `base`. -/
theorem locate_register (c : Config) {n base : Nat} [NeZero n] {loc : Fin n → Location}
    (hbase : base + n ≤ 2 ^ 30) (hloc : ∀ i < n, registerAt (base + i) = some (loc (Fin.ofNat n i)))
    (i : Fin n) : locate c (BitVec.ofNat 32 (base + i)) = some (loc i) := by
  rw [locate_reg c _ (by omega), hloc i i.isLt, Fin.ofNat_val_eq_self]

section RegisterMap
variable (c : Config)

theorem locate_len (i : Fin 4) : locate c (BitVec.ofNat 32 (0x04 + i)) = some (.len i) :=
  locate_register c (by decide) registerAt_len i

theorem locate_olen (i : Fin 4) : locate c (BitVec.ofNat 32 (0x08 + i)) = some (.olen i) :=
  locate_register c (by decide) registerAt_olen i

theorem locate_ecnt (i : Fin 4) : locate c (BitVec.ofNat 32 (0x0C + i)) = some (.ecnt i) :=
  locate_register c (by decide) registerAt_ecnt i

theorem locate_ctrblk (i : Fin 16) : locate c (BitVec.ofNat 32 (0x10 + i)) = some (.ctrblk i) :=
  locate_register c (by decide) registerAt_ctrblk i

theorem locate_nonce (i : Fin 12) : locate c (BitVec.ofNat 32 (0x20 + i)) = some (.nonce i) :=
  locate_register c (by decide) registerAt_nonce i

theorem locate_key (i : Fin 32) : locate c (BitVec.ofNat 32 (0x40 + i)) = some (.key i) :=
  locate_register c (by decide) registerAt_key i

end RegisterMap

/-! ### Host reads (R201) -/

/-- A host read of a location that holds `v`. -/
theorem step_read_byte {s : State} {rest : List HostEvent} {a : Addr} {l : Location} {v : Byte}
    (h : locate Config.chosen a = some l) (hv : s.readLocation l = v) :
    step { s with script := .hrd a :: rest } = .next { s with script := rest, reads := v :: s.reads } :=
  hv ▸ step_read h

/-- Settles O5, location by location. -/
theorem hostReadReturnsTheAddressedByte : Obligations.HostReadReturnsTheAddressedByte := by
  intro s rest reads
  refine ⟨?cmd, ?status, ?keylen, fun i => ?len, fun i => ?olen, fun i => ?ecnt, fun i => ?ctrblk,
    fun i => ?nonce, fun i => ?key, fun off hoff => ?ibuf, fun off hoff => ?obuf, fun a ha => ?unmapped⟩
  case cmd => exact step_read (l := .cmd) rfl
  case status => exact step_read_byte (l := .status) rfl (status_eq_or s)
  case keylen => exact step_read (l := .keylen) rfl
  case len => exact step_read_byte (locate_len _ i) (getElem_be32_eq_ofNat s.len i)
  case olen => exact step_read_byte (locate_olen _ i) (getElem_be32_eq_ofNat s.olen i)
  case ecnt => exact step_read_byte (locate_ecnt _ i) (getElem_be32_eq_ofNat s.ecnt i)
  case ctrblk => exact step_read (locate_ctrblk _ i)
  case nonce => exact step_read (locate_nonce _ i)
  case key => exact step_read (locate_key _ i)
  case ibuf => exact step_read (locate_ibuf _ off hoff)
  case obuf => exact step_read (locate_obuf _ off hoff)
  case unmapped => exact step_read_of_unmapped ((locate_eq_none _ a).mpr ha)

/-! ### Host writes (R202) -/

/-- A write of a reserved code to CMD (60_exceptions.md R226). -/
theorem step_reservedCode {s : State} {v : Byte} {rest : List HostEvent} (h : s.script = .hwr 0 v :: rest)
    (hv : ∀ i, encodeByte i ≠ v) :
    ∃ t, step s = .next t ∧ FailsWith { s with script := rest } t .badCommand 0 := by
  rw [step_of_script h, portEvent, hostWrite_cmd, commandWrite_of_reserved hv]
  exact runCommand_failsEarly rfl

/-- A write to one byte of LEN. -/
theorem step_lenWrite (s : State) (i : Fin 4) (v : Byte) (rest : List HostEvent) :
    step { s with script := .hwr (BitVec.ofNat 32 (0x04 + i)) v :: rest } =
      .next { s with script := rest, len := word32 ((be32 s.len).set i v) } :=
  step_write (locate_len _ i) nofun

/-- OLEN and ECNT stand side by side, and a write to either is ignored (10_state.md R41). -/
theorem step_countWrite (s : State) (i : Fin 8) (v : Byte) (rest : List HostEvent) :
    step { s with script := .hwr (BitVec.ofNat 32 (0x08 + i)) v :: rest } =
      .next { s with script := rest } := by
  induction i using Fin.addCases (m := 4) (n := 4) with
  | left i => exact step_write (locate_olen _ i) nofun
  | right i =>
    rw [Fin.val_natAdd, ← Nat.add_assoc]
    exact step_write (locate_ecnt _ i) nofun

/-- Settles O6, location by location. -/
theorem hostWriteStoresOnlyTheAddressedByte : Obligations.HostWriteStoresOnlyTheAddressedByte := by
  intro s rest v hwf writes
  refine ⟨fun i hi => ?command, fun hv => ?reserved, ?status, ?keylen, fun i => ?len, fun i => ?counts,
    fun i => ?ctrblk, fun i => ?nonce, fun i => ?key, fun off hoff => ?ibuf, fun off hoff => ?obuf,
    fun a ha => ?unmapped⟩
  case command => exact hi ▸ step_encodeByte rfl
  case reserved => exact step_reservedCode (s := { s with script := .hwr 0 v :: rest }) rfl hv
  case status => exact step_write (l := .status) rfl nofun
  case keylen => exact step_keylenWrite s v rest
  case len => exact word32_set_be32 s.len i v ▸ step_lenWrite s i v rest
  case counts => exact step_countWrite s i v rest
  case ctrblk => exact step_write (locate_ctrblk _ i) nofun
  case nonce => exact step_write (locate_nonce _ i) nofun
  case key => exact step_write (locate_key _ i) nofun
  case ibuf =>
    exact ⟨Memory.write s.ibuf off v, step_write (locate_ibuf _ off hoff) nofun,
      Memory.read_write hwf off v⟩
  case obuf => exact step_write (locate_obuf _ off hoff) nofun
  case unmapped => exact step_write_of_unmapped ((locate_eq_none _ a).mpr ha)

/-- Settles O8: the address has a location, which is not CMD, and no write to such a location changes a
result. -/
theorem operandWritesKeepResults : Obligations.OperandWritesKeepResults := by
  intro s a v rest hs ha hmapped
  obtain ⟨l, hl⟩ := Option.ne_none_iff_exists'.mp fun h => hmapped ((locate_eq_none Config.chosen a).mp h)
  have hcmd : l ≠ .cmd := fun h => ha ((locate_eq_cmd _ a).mp (h ▸ hl))
  obtain ⟨hres, hwork, hscript, hreads⟩ := writeLocation_frame { s with script := rest } v l
  refine ⟨_, ?_, { hres with }, hwork, hscript, hreads⟩
  rw [step_of_script hs, portEvent, hostWrite_of_locate hl hcmd]

/-! ### The bytes of LEN in any order (20_memory.md R62) -/

/-- The host writes byte `i` of LEN with byte `i` of `b`. -/
def lenByteWrite (b : Vector Byte 4) (i : Fin 4) : HostEvent := .hwr (BitVec.ofNat 32 (0x04 + i)) b[i]

/-- A register after its bytes `p` were set, one after another, to those of `b`. -/
def setBytes {n : Nat} (b r : Vector Byte n) (p : List (Fin n)) : Vector Byte n :=
  p.foldl (fun r (i : Fin n) => r.set i b[i]) r

theorem setBytes_cons {n : Nat} (b r : Vector Byte n) (i : Fin n) (p : List (Fin n)) :
    setBytes b r (i :: p) = setBytes b (r.set i b[i]) p := rfl

theorem getElem_setBytes {n : Nat} (b r : Vector Byte n) (p : List (Fin n)) (j : Fin n) :
    (setBytes b r p)[j] = if j ∈ p then b[j] else r[j] := by
  induction p generalizing r with
  | nil => rfl
  | cons i p ih =>
    rw [setBytes_cons, ih]
    by_cases hij : j = i
    · subst hij
      simp
    · have hset : (r.set i b[i])[j] = r[j] := Vector.getElem_set_ne _ _ fun h => hij (Fin.ext h.symm)
      rw [hset]
      simp [hij]

/-- With every byte set, in whatever order, nothing is left of what the register held. -/
theorem setBytes_eq {n : Nat} (b r : Vector Byte n) {p : List (Fin n)} (hp : ∀ i, i ∈ p) :
    setBytes b r p = b :=
  Vector.ext fun j hj => (getElem_setBytes b r p ⟨j, hj⟩).trans (if_pos (hp _))

theorem run_lenByteWrites (s : State) (b : Vector Byte 4) (p : List (Fin 4)) (rest : List HostEvent) :
    core.run p.length { s with script := p.map (lenByteWrite b) ++ rest } =
      .next { s with script := rest, len := word32 (setBytes b (be32 s.len) p) } := by
  induction p generalizing s with
  | nil => simp [setBytes, run_zero]
  | cons i p ih =>
    have hrun := ih { s with len := word32 ((be32 s.len).set i b[i]) }
    rw [be32_word32, ← setBytes_cons] at hrun
    exact (run_of_next (step_lenWrite s i b[i] _)).trans hrun

/-- A list in another order than the image of `l'` is the image of `l'` in another order. -/
theorem exists_eq_map_of_perm_map {α β : Type} {f : α → β} {l : List β} {l' : List α}
    (h : l.Perm (l'.map f)) : ∃ p : List α, l = p.map f ∧ p.Perm l' :=
  (congrFun₂ (List.eq_map_comp_perm f) l l').mpr h

/-- Settles O9: the writes are those of the bytes 0 to 3 in some order, and each byte is among them. -/
theorem lenBytesInAnyOrder : Obligations.LenBytesInAnyOrder := by
  intro s b rest l hl
  obtain ⟨p, rfl, hp⟩ := exists_eq_map_of_perm_map (f := lenByteWrite b) (l' := List.finRange 4) hl
  have hrun := run_lenByteWrites s b p rest
  rwa [setBytes_eq _ _ fun i => hp.mem_iff.mpr (List.mem_finRange i), hp.length_eq] at hrun

/-! ### `CLR` (R203) -/

theorem exec_clr (s : State) : exec .clr s =
    .next { State.reset with done := true, script := s.script, reads := s.reads } := rfl

/-- Settles O16: what `CLR` leaves does not depend on what it finds, so it leaves the same again. -/
theorem clrZeroesEverything : Obligations.ClrZeroesEverything :=
  ⟨rfl, fun s => ⟨_, exec_clr s, rfl, status_of_success rfl rfl rfl, exec_clr _⟩⟩

end Machine
end Sys2Proof
end

section
/-! # The errors of the commands (60_exceptions.md)

A reserved code, and the order in which a command's checks are made (R226, R227). -/

namespace Sys2Proof.Machine

/-- Settles O4: the body of a reserved code fails before any unit has run. -/
theorem reservedCodeFailsWithBadCommand : Obligations.ReservedCodeFailsWithBadCommand :=
  fun _ _ _ => step_reservedCode

/-! ### A command with a failing check (R227) -/

section EarlyError
variable {c : Config} {s : State} {e : CmdError}

/-- `KS.GEN` and `KS.APPLY` make the same checks. -/
theorem runCommand_keystreamBody_of_earlyError (data : State → List Byte)
    (h : earlyError c s .ksGen = some e) :
    ∃ t, runCommand (keystreamBody c data) s = .next t ∧ FailsWith s t e 0 := by
  rw [earlyError] at h
  split_ifs at h with hlong hkey <;> cases h
  · exact runCommand_keystreamBody_badLength c data hlong
  · exact runCommand_keystreamBody_invalidKey c data (Nat.not_lt.mp hlong)
      (Bool.eq_false_of_not_eq_true hkey)

theorem runCommand_fdDigestBody_of_earlyError (h : earlyError c s .fdDigest = some e) :
    ∃ t, runCommand (fdDigestBody c) s = .next t ∧ FailsWith s t e 0 := by
  rw [earlyError] at h
  split_ifs at h with hlong
  cases h
  exact runCommand_failsEarly (if_pos hlong)

theorem runCommand_envOpenBody_of_earlyError (h : earlyError c s .envOpen = some e) :
    ∃ t, runCommand (envOpenBody c) s = .next t ∧ FailsWith s t e 0 := by
  rw [earlyError] at h
  split_ifs at h with hlong hshort hkey <;> cases h
  · exact runCommand_failsEarly (if_pos hlong)
  · exact runCommand_envOpenBody_invalidEnvelope c hshort
  · exact runCommand_envOpenBody_invalidKey (Nat.not_lt.mp hshort) (Nat.not_lt.mp hlong)
      (Bool.eq_false_of_not_eq_true hkey)

theorem runCommand_envSealBody_of_earlyError (h : earlyError c s .envSeal = some e) :
    ∃ t, runCommand (envSealBody c) s = .next t ∧ FailsWith s t e 0 := by
  have hbuf := c.le_bufSize
  rw [earlyError] at h
  split_ifs at h with hlong hkey <;> cases h
  · exact runCommand_failsEarly (if_pos (show c.bufSize - 28 < s.len.toNat by omega))
  · exact runCommand_envSealBody_invalidKey (Nat.le_sub_of_add_le (Nat.not_lt.mp hlong))
      (Bool.eq_false_of_not_eq_true hkey)

end EarlyError

theorem exec_failsWith_of_earlyError {i : Instr} {s : State} {e : CmdError}
    (h : earlyError Config.chosen s i = some e) : ∃ t, exec i s = .next t ∧ FailsWith s t e 0 := by
  cases i with
  | clr | gfMul => exact nomatch h
  | ksGen | ksApply => exact runCommand_keystreamBody_of_earlyError _ h
  | fdDigest => exact runCommand_fdDigestBody_of_earlyError h
  | envOpen => exact runCommand_envOpenBody_of_earlyError h
  | envSeal => exact runCommand_envSealBody_of_earlyError h

/-! ### A command with no failing check (R227) -/

theorem Succeeds.err_eq_zero {s t : State} {out : List Byte} {cnt : Nat} {auth : Bool}
    (h : Succeeds s t out cnt auth) : t.err = 0 := by
  obtain ⟨-, -, herr⟩ := h.status
  exact herr

theorem exists_err_eq_zero_of_succeeds {r : Host.Outcome State Fault Refusal} {s : State} {out : List Byte}
    {cnt : Nat} {auth : Bool} (h : ∃ t, r = .next t ∧ Succeeds s t out cnt auth) :
    ∃ t, r = .next t ∧ t.err = 0 :=
  h.imp fun _ => And.imp_right Succeeds.err_eq_zero

section NoEarlyError
variable {c : Config} {s : State}

theorem earlyError_ksGen_eq_none_iff : earlyError c s .ksGen = none ↔
    s.len.toNat ≤ c.bufSize ∧ c.keySizeOk s.keylen.toNat = true := by
  simp [earlyError, ite_eq_iff]

theorem earlyError_fdDigest_eq_none_iff : earlyError c s .fdDigest = none ↔ s.len.toNat ≤ c.bufSize := by
  simp [earlyError]

theorem earlyError_envOpen_eq_none_iff : earlyError c s .envOpen = none ↔
    s.len.toNat ≤ c.bufSize ∧ 28 ≤ s.len.toNat ∧ c.keySizeOk s.keylen.toNat = true := by
  simp [earlyError, ite_eq_iff]

theorem earlyError_envSeal_eq_none_iff : earlyError c s .envSeal = none ↔
    s.len.toNat + 28 ≤ c.bufSize ∧ c.keySizeOk s.keylen.toNat = true := by
  simp [earlyError, ite_eq_iff]

end NoEarlyError

/-- Only `ENV.OPEN` has an error that is not found by a check. -/
theorem exec_err_eq_zero_of_earlyError_eq_none {i : Instr} {s : State} (hi : i ≠ .envOpen)
    (h : earlyError Config.chosen s i = none) : ∃ t, exec i s = .next t ∧ t.err = 0 := by
  cases i with
  | clr => exact ⟨_, exec_clr s, rfl⟩
  | ksGen =>
    obtain ⟨hlen, hkey⟩ := earlyError_ksGen_eq_none_iff.mp h
    exact exists_err_eq_zero_of_succeeds
      (runCommand_keystreamBody_succeeds _ List.length_replicate hlen hkey)
  | ksApply =>
    obtain ⟨hlen, hkey⟩ := earlyError_ksGen_eq_none_iff.mp h
    exact exists_err_eq_zero_of_succeeds
      (runCommand_keystreamBody_succeeds _ (length_input s.prologue) hlen hkey)
  | gfMul => exact ⟨_, rfl, rfl⟩
  | fdDigest =>
    exact exists_err_eq_zero_of_succeeds
      (runCommand_fdDigestBody_succeeds _ (earlyError_fdDigest_eq_none_iff.mp h))
  | envOpen => exact absurd rfl hi
  | envSeal =>
    obtain ⟨hfit, hkey⟩ := earlyError_envSeal_eq_none_iff.mp h
    obtain ⟨t, ht, hsucc, -⟩ := runCommand_envSealBody_seals (Nat.le_sub_of_add_le hfit) hkey
    exact ⟨t, ht, hsucc.err_eq_zero⟩

/-- Past its checks `ENV.OPEN` ends as the compare tells. -/
theorem exec_envOpen_of_earlyError_eq_none {s : State}
    (h : earlyError Config.chosen s .envOpen = none) : ∃ t, exec .envOpen s = .next t ∧
      (t.err = 0 ∨ FailsWith s t .authenticationFailure (ceil16 (s.len.toNat - 28) + 1)) := by
  obtain ⟨hmax, hmin, hkey⟩ := earlyError_envOpen_eq_none_iff.mp h
  cases hopen : openEnvelope Config.chosen s.keyBytes s.input with
  | none =>
    obtain ⟨t, ht, hfail⟩ := runCommand_envOpenBody_rejects hmin hmax hkey hopen
    exact ⟨t, ht, .inr hfail⟩
  | some pt =>
    obtain ⟨t, ht, hsucc, -⟩ := runCommand_envOpenBody_opens hmin hmax hkey hopen
    exact ⟨t, ht, .inl hsucc.err_eq_zero⟩

/-- Settles O23: a reserved byte has no operands to check, a check that fails comes before any unit runs,
and what is left past the checks is the compare of `ENV.OPEN`. -/
theorem firstErrorInPriorityOrder : Obligations.FirstErrorInPriorityOrder := by
  refine ⟨fun s v hv => ?reserved, fun _ _ _ => exec_failsWith_of_earlyError, fun i s h => ?passed⟩
  case reserved =>
    rw [commandWrite_of_reserved hv]
    exact runCommand_failsEarly rfl
  case passed =>
    by_cases hi : i = .envOpen
    · subst hi
      obtain ⟨t, ht, hend⟩ := exec_envOpen_of_earlyError_eq_none h
      exact ⟨t, ht, hend.imp_right fun hfail => ⟨rfl, hfail⟩⟩
    · obtain ⟨t, ht, herr⟩ := exec_err_eq_zero_of_earlyError_eq_none hi h
      exact ⟨t, ht, .inl herr⟩

end Sys2Proof.Machine
end

section
/-! # Reset and hazards (70_reset_and_hazards.md)

A reset event, the keystream from a later block on, and the run of a script whose events all have a
step. -/

namespace Sys2Proof.Machine

/-- Settles O15: the step is `State.applyReset` on what is left of the script. -/
theorem resetEventRestoresTheResetState : Obligations.ResetEventRestoresTheResetState :=
  fun _ _ hs => ⟨_, step_of_script hs, rfl⟩

/-! ### Keystreams that overlap (R257, R113) -/

/-- Byte `16 * k + i` comes from the block after `i / 16` more increments. -/
theorem drop_keystreamApply (c : Config) (key : List Byte) (cb : Block) (k : Nat) (data : List Byte) :
    (keystreamApply c key cb data).drop (16 * k) =
      keystreamApply c key (inc32^[k] cb) (data.drop (16 * k)) := by
  apply List.ext_getElem?
  intro i
  rw [List.getElem?_drop]
  by_cases hi : 16 * k + i < data.length
  · have hi' : i < (data.drop (16 * k)).length := by rw [List.length_drop]; omega
    have hblock : (16 * k + i) / 16 = i / 16 + k := by omega
    rw [getElem?_keystreamApply c key cb hi, getElem?_keystreamApply c key _ hi', List.getElem_drop, hblock,
      Function.iterate_add_apply, Nat.mul_add_mod]
  · have hi' : (data.drop (16 * k)).length ≤ i := by rw [List.length_drop]; omega
    rw [List.getElem?_eq_none (by simpa using hi), List.getElem?_eq_none (by simpa using hi')]

/-- Settles O32: `drop_keystreamApply` for zero bytes. -/
theorem keystreamsOverlapByCounter : Obligations.KeystreamsOverlapByCounter := by
  intro c key cb k n
  rw [drop_keystreamApply, List.drop_replicate, Nat.add_sub_cancel_left]

/-! ### A script of mapped accesses (R262) -/

theorem hostRead_of_locate {c : Config} {a : Addr} {l : Location} (h : locate c a = some l) (s : State) :
    hostRead c a s = .next { s with reads := s.readLocation l :: s.reads } := by
  rw [hostRead, h]

/-- A reset and an access to a mapped address always have a step: of the writes, one to CMD runs a command
or fails through the failure exit, and any other stores its byte. -/
theorem exists_portEvent_eq_next {e : HostEvent} (he : e.mapped Config.chosen = true) (s : State) :
    ∃ t, portEvent Config.chosen e s = .next t := by
  cases e with
  | hrd a =>
    obtain ⟨l, hl⟩ := Option.isSome_iff_exists.mp he
    exact ⟨_, hostRead_of_locate hl s⟩
  | hwr a v =>
    obtain ⟨l, hl⟩ := Option.isSome_iff_exists.mp he
    by_cases hcmd : l = .cmd
    · obtain rfl := (locate_eq_cmd _ a).mp (hcmd ▸ hl)
      obtain ⟨r, -, hr⟩ := exists_commandWrite_eq v s
      exact ⟨_, (hostWrite_cmd Config.chosen v s).trans hr⟩
    · exact ⟨_, hostWrite_of_locate hl hcmd v s⟩
  | reset => exact ⟨_, rfl⟩

theorem exists_step_eq_next {s : State} (hs : ∀ e ∈ s.script, e.mapped Config.chosen = true) :
    ∃ t, step s = .next t := by
  rcases hscript : s.script with _ | ⟨e, rest⟩
  · exact ⟨s, step_of_empty_script hscript⟩
  · rw [step_of_script hscript]
    exact exists_portEvent_eq_next (hs e (by simp [hscript])) _

/-- Settles O54, by induction on the number of steps: what is left of the script is still mapped. -/
theorem mappedScriptRunsToItsEnd : Obligations.MappedScriptRunsToItsEnd := by
  intro s n hs
  induction n generalizing s with
  | zero => exact ⟨s, run_zero s, rfl⟩
  | succ n ih =>
    obtain ⟨u, hu⟩ := exists_step_eq_next hs
    have hscript := script_of_next hu
    obtain ⟨t, ht, htscript⟩ := ih u fun e he => hs e (List.mem_of_mem_tail (hscript ▸ he))
    exact ⟨t, (run_of_next hu).trans ht, by rw [htscript, hscript, List.drop_tail]⟩

end Sys2Proof.Machine
end
